-- ==== Sys2Proof/Word.lean ====
section
/-! DEFINITION. The words of the block: times, command words, bits and levels (spec/00_scope.md R7, R8). -/

namespace Sys2Proof

/-- A time: the value of `NOW` or `TGT`, `W_T = 32` bits, arithmetic modulo `2^32` (R7, R146). -/
abbrev Word := BitVec 32

/-- A command word on the `cmd` port, `CMD_W = 16` bits (R7, R60). -/
abbrev CmdWord := BitVec 16

/-- An element of a Bit Sequence: `false` is 0, `true` is 1 (R8). -/
abbrev Bit := Bool

/-- A pin level, an element of a Level Sequence: `false` is 0, `true` is 1 (R8). -/
abbrev Level := Bool

end Sys2Proof
end

