-- ==== Sys2Proof/Syntax.lean ====
section
/-! DEFINITION. The commands of the block: one constructor per row of spec/opcode_table.json (30_encoding.md R62). -/

namespace Sys2Proof

/-- The five commands. `group` and `button` are the 4-bit fields of the command word, used as they stand
(30_encoding.md R61); which of their sixteen values are legal is `Instr.wellFormed`. -/
inductive Instr where
  /-- `INIT`: put pin 0 in output mode (45_commands.md R151). -/
  | init
  /-- `SENDOFF g, b`: one frame with the Action Code "off" (R152). -/
  | sendoff (group button : BitVec 4)
  /-- `SENDON g, b`: one frame with the Action Code "on" (R153). -/
  | sendon (group button : BitVec 4)
  /-- `SWOFF g, b`: five frames with the Action Code "off" (R154). -/
  | swoff (group button : BitVec 4)
  /-- `SWON g, b`: five frames with the Action Code "on" (R155). -/
  | swon (group button : BitVec 4)
deriving DecidableEq, Repr

end Sys2Proof
end

