-- ==== Sys2Proof/WellFormed.lean ====
section
/-! DEFINITION. Which commands are legal: group and button each in 1..4 (30_encoding.md R60, R63). -/

namespace Sys2Proof

/-- A selector field is legal when it is 1, 2, 3 or 4; 0 and 5 to 15 are not, and are never wrapped into range
(20_memory.md R44). -/
def selectorLegal (v : BitVec 4) : Bool := decide (1 ≤ v.toNat) && decide (v.toNat ≤ 4)

/-- A command is well formed when each of its selectors is legal (30_encoding.md R63). -/
def Instr.wellFormed : Instr → Bool
  | .init => true
  | .sendoff g b => selectorLegal g && selectorLegal b
  | .sendon g b => selectorLegal g && selectorLegal b
  | .swoff g b => selectorLegal g && selectorLegal b
  | .swon g b => selectorLegal g && selectorLegal b

end Sys2Proof
end

