-- ==== Sys2Proof/Decode.lean ====
section
/-! DEFINITION. The decoder and the encoder of command words (spec/30_encoding.md R60 to R64).

The rows of R62 select a command by `(cmd & mask) = match` before any operand check; `decode` is that selection.
The operand check of R63 is `Instr.wellFormed`, and the two together are the function `Decode` of R64, which stands
below as `decodeCmd`, written from R64's own text (log 8). -/

namespace Sys2Proof

/-! ### Format C (R60) -/

/-- `OP`, bits 15:12. -/
def opField (c : CmdWord) : BitVec 4 := c.extractLsb' 12 4

/-- `RSV`, bits 11:8. -/
def rsvField (c : CmdWord) : BitVec 4 := c.extractLsb' 8 4

/-- `GROUP`, bits 7:4. -/
def groupField (c : CmdWord) : BitVec 4 := c.extractLsb' 4 4

/-- `BUTTON`, bits 3:0. -/
def buttonField (c : CmdWord) : BitVec 4 := c.extractLsb' 0 4

/-- A word of format C from its four fields, `OP` most significant. -/
def formatC (op rsv group button : BitVec 4) : CmdWord := op ++ rsv ++ group ++ button

/-! ### Row selection (R62) -/

/-- A row of the opcode map: a word `c` is of the row when `c & mask = pattern`. -/
structure OpcodeRow where
  pattern : CmdWord
  mask : CmdWord
  command : BitVec 4 → BitVec 4 → Instr

/-- The opcode map of R62, row by row. -/
def opcodeRows : List OpcodeRow :=
  [ ⟨0x1000#16, 0xFFFF#16, fun _ _ => .init⟩,
    ⟨0x2000#16, 0xFF00#16, .sendoff⟩,
    ⟨0x3000#16, 0xFF00#16, .sendon⟩,
    ⟨0x4000#16, 0xFF00#16, .swoff⟩,
    ⟨0x5000#16, 0xFF00#16, .swon⟩ ]

/-- Why a word is of no row (R63, first three cases). -/
inductive DecodeError where
  /-- `OP` is 0 or 6 to 15. -/
  | reservedOp
  /-- `OP = 1` with any of bits 11:0 non-zero. -/
  | initOperandBits
  /-- `OP` in 2..5 with `RSV != 0`. -/
  | reservedBits
deriving DecidableEq, Repr

/-- The name of the case of R63 under which a word that is of no row falls. -/
def decodeError (c : CmdWord) : DecodeError :=
  if opField c = 1#4 then .initOperandBits
  else if 2 ≤ (opField c).toNat ∧ (opField c).toNat ≤ 5 then .reservedBits
  else .reservedOp

/-- The command a word stands for, total on every word: the row of R62 it is of, with the `GROUP` and `BUTTON`
fields as they stand (R61); a word of no row is rejected by name. -/
def decode (c : CmdWord) : Except DecodeError Instr :=
  match opcodeRows.find? fun r => (c &&& r.mask) == r.pattern with
  | some r => .ok (r.command (groupField c) (buttonField c))
  | none => .error (decodeError c)

/-! ### `Decode` of R64 -/

/-- The codomain `Cmd` of R64. -/
inductive Cmd where
  | init
  | send (on : Bool) (group button : BitVec 4)
  | switch (on : Bool) (group button : BitVec 4)
  | illegal
deriving DecidableEq, Repr

/-- `Decode` of R64, line by line: the function that tells every legal word and calls every other one illegal. -/
def decodeCmd (c : CmdWord) : Cmd :=
  if c = 0x1000#16 then .init
  else if c.extractLsb' 13 3 = 0b001#3 ∧ c.extractLsb' 8 4 = 0#4 ∧
      (1 ≤ (c.extractLsb' 4 4).toNat ∧ (c.extractLsb' 4 4).toNat ≤ 4) ∧
      (1 ≤ (c.extractLsb' 0 4).toNat ∧ (c.extractLsb' 0 4).toNat ≤ 4) then
    .send (c.getLsbD 12) (c.extractLsb' 4 4) (c.extractLsb' 0 4)
  else if c.extractLsb' 13 3 = 0b010#3 ∧ c.extractLsb' 8 4 = 0#4 ∧
      (1 ≤ (c.extractLsb' 4 4).toNat ∧ (c.extractLsb' 4 4).toNat ≤ 4) ∧
      (1 ≤ (c.extractLsb' 0 4).toNat ∧ (c.extractLsb' 0 4).toNat ≤ 4) then
    .switch (c.getLsbD 12) (c.extractLsb' 4 4) (c.extractLsb' 0 4)
  else .illegal

/-- The `Cmd` of R64 that a command is when its operands are legal: R64 writes SENDOFF and SENDON as one `Send` with
the on/off selector, SWOFF and SWON as one `Switch`. -/
def Instr.toCmd : Instr → Cmd
  | .init => .init
  | .sendoff g b => .send false g b
  | .sendon g b => .send true g b
  | .swoff g b => .switch false g b
  | .swon g b => .switch true g b

/-! ### Encoder (R62, R64) -/

/-- The word of a command: `Init` is `0x1000`, `Send(on, g, b)` is `0x2000 + 0x1000 on + 16 g + b`,
`Switch(on, g, b)` is `0x4000 + 0x1000 on + 16 g + b` (R64), here field by field. -/
def encode : Instr → CmdWord
  | .init => formatC 1#4 0#4 0#4 0#4
  | .sendoff g b => formatC 2#4 0#4 g b
  | .sendon g b => formatC 3#4 0#4 g b
  | .swoff g b => formatC 4#4 0#4 g b
  | .swon g b => formatC 5#4 0#4 g b

/-! ### The host's view of a table word -/

/-- The command word whose low `nbits` bits are those of `w` and whose other bits are 0. Every command is one 16-bit
word (R60), bit 0 its least significant bit. -/
def tableWord (nbits w : Nat) : CmdWord := BitVec.ofNat 16 (w % 2 ^ nbits)

/-- What the decoder reads from the word `w` of the opcode table; `none` where it refuses. -/
def decodeTableWord (nbits w : Nat) : Option Instr :=
  match decode (tableWord nbits w) with
  | .ok i => some i
  | .error _ => none

end Sys2Proof
end

