-- ==== Sys2Proof/Config.lean ====
section
/-! DEFINITION. What an instance of the block fixes: the protocol constants (spec/00_scope.md R5), the two open
parameters `PULSE_TICKS` (R7) and `CHANNEL_CODE` (R6), and the free values of the model. -/

namespace Sys2Proof

/-! ### Protocol constants (R5) -/

/-- `PRE_LEN`: preamble slots, all at level 0. -/
def preLen : Nat := 26

/-- `SYNC_LEN`: sync slots, at level 1. -/
def syncLen : Nat := 1

/-- `POST_LEN`: postamble slots, all at level 0. -/
def postLen : Nat := 2

/-- `N_CH`: bits of a Channel Code. -/
def nCh : Nat := 32

/-- `N_ACT`: bits of an Action Code. -/
def nAct : Nat := 16

/-- `N_BITS`: bits of a Command Code. -/
def nBits : Nat := 48

/-- `ON_CODE`: the Action Code for "on". -/
def onCode : BitVec 16 := 0x3333#16

/-- `OFF_CODE`: the Action Code for "off". -/
def offCode : BitVec 16 := 0x5333#16

/-- `N_GROUP`: groups, numbered 1 to 4, the rows of the Channel Code table. -/
def nGroup : Nat := 4

/-- `N_BUTTON`: buttons, numbered 1 to 4, the columns of the Channel Code table. -/
def nButton : Nat := 4

/-- `PIN_INDEX`: the one platform pin the block drives; every pin write of the model is a write to it (60_exceptions.md
R182). -/
def pinIndex : Nat := 0

/-- `REPEAT`: frames sent by one SWON or SWOFF command. -/
def repeatCount : Nat := 5

/-- `SLOTS_ZERO`: slots a 0 bit occupies. -/
def slotsZero : Nat := 1

/-- `SLOTS_ONE`: slots a 1 bit occupies. -/
def slotsOne : Nat := 3

/-- `W_MAX`: the largest width `toBits` supports. -/
def wMax : Nat := 32

/-! ### Parameters of an instance -/

/-- The two parameters fixed when the block is instantiated and by no rule afterwards (R6, R7; log 3). -/
structure Config where
  /-- `PULSE_TICKS`, in pseudocode `P`: ticks in one slot. -/
  pulseTicks : Nat
  /-- `CHANNEL_CODE[gi][bi]`: row `gi = group - 1`, column `bi = button - 1`. -/
  channelCode : Vector (Vector (BitVec 32) 4) 4
deriving DecidableEq, Repr

/-- The constraints of R6 and R7: `1 <= PULSE_TICKS < 2^31`, and the sixteen Channel Codes pairwise distinct. -/
abbrev Config.wf (c : Config) : Prop :=
  1 ≤ c.pulseTicks ∧ c.pulseTicks < 2 ^ 31 ∧
    ∀ g b g' b' : Fin 4, (c.channelCode.get g).get b = (c.channelCode.get g').get b' → g = g' ∧ b = b'

/-! ### Open values -/

/-- The open Channel Code table of the instance that `State.reset` describes. Nothing is known of it but that it
is a permutation of the 32-bit words, so that the sixteen codes read from it below are pairwise distinct; every
table of sixteen pairwise distinct words is that of some permutation (R6; 93_implementation_defined.md U6; DESIGN
CHOICE, log 4). -/
opaque Config.channelCodePerm : Equiv.Perm (BitVec 32)

/-- The instance that `State.reset` describes: the spec's default pulse width of 450 ticks (R7) and an open table
(log 4). -/
def Config.default : Config where
  pulseTicks := 450
  channelCode := Vector.ofFn fun g => Vector.ofFn fun b =>
    Config.channelCodePerm (BitVec.ofNat 32 (4 * g.val + b.val))

/-- Free value: what `BITCNT` becomes where the text of R138 would count it down from 0, which no reachable state
does (10_state.md R34 item 6) and for which the spec leaves any value (93_implementation_defined.md U12). It is
applied to `NOW`, a counter every edge advances (DESIGN CHOICE, log 7). -/
opaque Config.bitcntBelowZero : Word → Fin 49

end Sys2Proof
end

