-- ==== Sys2Proof/Machine/State.lean ====
section
/-! DEFINITION. The state of the block: its seventeen registers (spec/10_state.md R14), the parameters of the
instance, and the levels the host drives on the input ports; the reasons a step could stop; the state after reset. -/

namespace Sys2Proof.Machine

open Sys2Proof

/-- `PHASE`: the part of the frame on the pin (10_state.md R21). The three values 5 to 7 that no rule produces are not
represented (93_implementation_defined.md U12; log 5). -/
inductive Phase where
  | idle | pre | sync | pay | post
deriving DecidableEq, Repr

/-- `RESP`: the response code (10_state.md R30, 60_exceptions.md R170). Code 3 is never produced and not represented
(U12; log 5). -/
inductive Resp where
  /-- code 0, `OK` -/
  | ok
  /-- code 1, `InvalidArgument` -/
  | invalidArgument
  /-- code 2, `HwUnavailable` -/
  | hwUnavailable
deriving DecidableEq, Repr

/-- The seventeen registers of 10_state.md R14, under the spec's names in lower case. A counter's type is its set of
values in R14's table (log 5). -/
structure Regs where
  /-- `NOW`, the free-running time counter (R15) -/
  now : Word
  /-- `TGT`, the absolute time at which the current slot ends (R16) -/
  tgt : Word
  /-- `PIN_OE`, pin 0 is in output mode (R17) -/
  pinOe : Bool
  /-- `PIN_LVL`, the level last written to pin 0 (R18) -/
  pinLvl : Level
  /-- `PIN_WR`, a pin write took place at the previous edge (R19) -/
  pinWr : Bool
  /-- `PHASE` (R21) -/
  phase : Phase
  /-- `CNT`, slots of the preamble or postamble to come after the current one (R22) -/
  cnt : Fin 26
  /-- `SHREG`, Command Code bits not yet fully sent, next bit at bit 0 (R23) -/
  shreg : BitVec 48
  /-- `BITCNT`, payload bits not yet fully sent (R24) -/
  bitcnt : Fin 49
  /-- `TOG`, the Waveform Encoder's toggling state (R25) -/
  tog : Level
  /-- `RUN`, slots of the current bit to come after the current one (R26) -/
  run : Fin 3
  /-- `REP`, frames to send after the current one (R27) -/
  rep : Fin 5
  /-- `SEL_G`, latched `group - 1` (R28) -/
  selG : Fin 4
  /-- `SEL_B`, latched `button - 1` (R28) -/
  selB : Fin 4
  /-- `SEL_ON`, latched on/off selector (R28) -/
  selOn : Bool
  /-- `DONE`, a command completed at the previous edge (R29) -/
  done : Bool
  /-- `RESP`, response of the most recently completed command (R30) -/
  resp : Resp
deriving DecidableEq, Repr

/-- The input ports, but for the clock (10_state.md R10): one edge of the clock is one step. -/
structure Inputs where
  /-- `rst`, synchronous reset, active high -/
  rst : Bool
  /-- `cmd_valid`, the host presents a command word -/
  cmdValid : Bool
  /-- `cmd`, the command word -/
  cmd : CmdWord
  /-- `gpio_ok`, the platform's pin subsystem is accessible -/
  gpioOk : Bool
deriving DecidableEq, Repr

/-- The state a step starts from: the registers, the instance's parameters, which no step writes (log 3), and the
host's side of the input ports (log 1). -/
structure State where
  /-- `PULSE_TICKS` and `CHANNEL_CODE` of this instance -/
  cfg : Config
  /-- the block's registers -/
  regs : Regs
  /-- the levels on the input ports that the next edge samples -/
  inp : Inputs
  /-- the levels the host drives at the edges after the next one, first to last; when there are no more, the levels
  stay as they are -/
  later : List Inputs
deriving DecidableEq, Repr

/-- Why a step could stop with a fault: there is no such reason. The block has no stuck state and no undefined
transition (44_pulse_transmitter.md R142), its error conditions are responses the machine goes on after (60_exceptions.md
R174), and nobody raises a fault (log 10; safe: there is nothing a claim could rest on). -/
inductive Fault where
deriving DecidableEq, Repr

/-- Why a step could refuse. -/
inductive Refusal where
  /-- A command without a meaning yet, by its mnemonic: raised by no arm of `exec`, since all five commands have their
  meaning (safe). -/
  | notModelled (mnemonic : String)
deriving DecidableEq, Repr

/-- The reset values of all seventeen registers (10_state.md R35). Before the first reset edge no register has a value, and
the model has no such state (70_reset_and_hazards.md R192; log 12). -/
def Regs.reset : Regs where
  now := 0
  tgt := 0
  pinOe := false
  pinLvl := false
  pinWr := false
  phase := .idle
  cnt := 0
  shreg := 0
  bitcnt := 0
  tog := false
  run := 0
  rep := 0
  selG := 0
  selB := 0
  selOn := false
  done := false
  resp := .ok

/-- The input levels beside the reset registers: no reset, no command, pin subsystem accessible. The spec leaves them to
the host (70_reset_and_hazards.md R203; DESIGN CHOICE, log 2). -/
def Inputs.quiet : Inputs where
  rst := false
  cmdValid := false
  cmd := 0
  gpioOk := true

/-- The machine right after a reset edge: every register at its reset value (R35, 70_reset_and_hazards.md R191), an
instance with the default pulse width and an open table (log 4), and a host that presents nothing (log 2). -/
def State.reset : State where
  cfg := Config.default
  regs := Regs.reset
  inp := Inputs.quiet
  later := []

end Sys2Proof.Machine
end

