-- ==== Sys2Proof/Machine/Operands.lean ====
section
/-! DEFINITION. Operand forms: the selectors of a command and the two ROMs they index (spec/30_encoding.md R61, R65,
20_memory.md R41 to R44). -/

namespace Sys2Proof.Machine

open Sys2Proof

/-- The ROM index of a selector field: `group - 1` or `button - 1` when the field is in 1..4, and nothing otherwise
(30_encoding.md R61). An out-of-range field is never wrapped into range (20_memory.md R44). -/
def selector (field : BitVec 4) : Option (Fin 4) :=
  if h : 1 ≤ field.toNat ∧ field.toNat ≤ 4 then some ⟨field.toNat - 1, by omega⟩ else none

/-- `RomCh(gi, bi)`: a word of the Channel Code ROM (20_memory.md R41). -/
def romCh (c : Config) (gi bi : Fin 4) : BitVec 32 := (c.channelCode.get gi).get bi

/-- `RomAct(on)`: a word of the Action Code ROM (20_memory.md R42). -/
def romAct (on : Bool) : BitVec 16 := if on then onCode else offCode

/-- The 48-bit Command Code, Action Code in bits 47:32 and Channel Code in bits 31:0 (20_memory.md R43, 30_encoding.md
R65). -/
def commandCode (c : Config) (gi bi : Fin 4) (on : Bool) : BitVec 48 := romAct on ++ romCh c gi bi

/-- A down counter one lower. Every rule that counts down does so from a value that is not 0
(44_pulse_transmitter.md R146). -/
def down {n : Nat} (x : Fin (n + 1)) : Fin (n + 1) := ⟨x.val - 1, by omega⟩

/-- `BITCNT - 1`; from 0, where no reachable state counts down, the free value of Config (log 7). -/
def bitcntDown (now : Word) (x : Fin 49) : Fin 49 := if x = 0 then Config.bitcntBelowZero now else down x

/-- `PULSE_TICKS` as an addend of a time (44_pulse_transmitter.md R146). -/
def pulse (c : Config) : Word := BitVec.ofNat 32 c.pulseTicks

end Sys2Proof.Machine
end

