-- ==== Sys2Proof/Machine/Flags.lean ====
section
/-! DEFINITION. Conditions and status: the busy-wait's exit test, the run counter's load value, the output ports
(spec/10_state.md R11, R31, 44_pulse_transmitter.md R132). The block has no arithmetic flags (R31). -/

namespace Sys2Proof.Machine

open Sys2Proof

/-- `due`: the current time has reached the target, modulo `2^32` (44_pulse_transmitter.md R132). -/
def due (now tgt : Word) : Bool := decide ((now - tgt).toNat < 2 ^ 31)

/-- The load value of `RUN` when a payload bit begins: the slots of the bit that follow its first one, 2 for a 1 bit
and 0 for a 0 bit (10_state.md R26). -/
def runLoad (bit : Bit) : Fin 3 := if bit then 2 else 0

/-- `busy`: a transmission is in flight (10_state.md R11). -/
def Regs.busy (r : Regs) : Bool := r.phase != .idle

/-- The output ports (10_state.md R11). -/
structure Outputs where
  cmdReady : Bool
  busy : Bool
  pinOut : Level
  pinOe : Bool
  pinWr : Bool
  done : Bool
  resp : BitVec 2
deriving DecidableEq, Repr

/-- The number of a response code on the two-bit `resp` port (60_exceptions.md R170). -/
def Resp.code : Resp → BitVec 2
  | .ok => 0
  | .invalidArgument => 1
  | .hwUnavailable => 2

/-- Every output is a function of the registers alone (10_state.md R11). -/
def Regs.outputs (r : Regs) : Outputs where
  cmdReady := r.phase == .idle
  busy := r.busy
  pinOut := r.pinLvl
  pinOe := r.pinOe
  pinWr := r.pinWr
  done := r.done
  resp := r.resp.code

/-- The level the block drives on pin 0; while `pin_oe = 0` it drives none, and the spec gives the pin no value
(10_state.md R13, 93_implementation_defined.md U4; log 9). -/
def Regs.drivenLevel (r : Regs) : Option Level := if r.pinOe then some r.pinLvl else none

end Sys2Proof.Machine
end

