-- ==== Sys2Proof/Machine/Ops.lean ====
section
/-! DEFINITION. The shared operations: what an edge writes by default, pin writes, responses and raises, frame starts,
the send path, and the passing of the host's levels from one edge to the next.

Every operation on registers follows the notation of spec/00_scope.md R8: `r` is the registers before the edge, which
right-hand sides read, and `n` the registers being written. -/

namespace Sys2Proof.Machine

open Sys2Proof

/-! ### The edge -/

/-- What every edge with `rst = 0` writes unless a later line overrides it: `NOW <- NOW + 1`, `DONE <- 0`,
`PIN_WR <- 0` (44_pulse_transmitter.md R142). -/
def edge (r : Regs) : Regs := { r with now := r.now + 1, done := false, pinWr := false }

/-- The levels the host drives after an edge: the next of `later`, or the same levels when there are no more
(log 1). -/
def State.nextInputs (s : State) : Inputs := s.later.head?.getD s.inp

/-- The state after an edge that leaves the registers as `n`: the host moves on by one edge. -/
def State.after (s : State) (n : Regs) : State :=
  { s with regs := n, inp := s.nextInputs, later := s.later.tail }

/-! ### Pin writes and responses -/

/-- `PinWrite(level)`: `PIN_LVL <- level; PIN_WR <- 1` (44_pulse_transmitter.md R133). -/
def pinWrite (level : Level) (n : Regs) : Regs := { n with pinLvl := level, pinWr := true }

/-- A command completes with a response: `RESP <- code; DONE <- 1` (60_exceptions.md R170). -/
def respond (code : Resp) (n : Regs) : Regs := { n with resp := code, done := true }

/-- `raise InvalidArgument` and `raise HwUnavailable`, the block's whole taking of an exception: the response is written
and no other register but `NOW` and `PIN_WR`; nothing is saved and there is nothing to return from
(60_exceptions.md R174, R177). -/
def raise (code : Resp) (r : Regs) : Regs := respond code (edge r)

/-! ### Frames -/

/-- `StartFrame(gi, bi, on)` at an edge at which `NOW = t` (44_pulse_transmitter.md R135). -/
def startFrame (c : Config) (t : Word) (gi bi : Fin 4) (on : Bool) (n : Regs) : Regs :=
  pinWrite false
    { n with
      phase := .pre
      cnt := ⟨preLen - 1, by decide⟩
      tgt := t + pulse c
      shreg := commandCode c gi bi on
      bitcnt := ⟨nBits, by decide⟩
      tog := false
      run := 0 }

/-- `SendStart(on, group, button, reps)` at an accept edge (45_commands.md R156). A selector outside 1..4 raises
`InvalidArgument` before anything else is looked at (43_command_table.md R121, 60_exceptions.md R175). -/
def sendStart (c : Config) (gpioOk on : Bool) (group button : BitVec 4) (reps : Fin 5) (r : Regs) : Regs :=
  match selector group, selector button with
  | some gi, some bi =>
    if r.pinOe && gpioOk then
      startFrame c r.now gi bi on { edge r with selG := gi, selB := bi, selOn := on, rep := reps }
    else raise .hwUnavailable r
  | _, _ => raise .invalidArgument r

/-- `REP` for a SEND: no further frame (45_commands.md R156). -/
def sendReps : Fin 5 := 0

/-- `REP` for a SWITCH: `REPEAT - 1` further frames (45_commands.md R156, 10_state.md R27). -/
def switchReps : Fin 5 := ⟨repeatCount - 1, by decide⟩

/-! ### What the next edge is -/

/-- The word accepted at the next edge: one is accepted exactly when `rst = 0`, `PHASE = IDLE` and `cmd_valid = 1`
(45_commands.md R150). -/
def State.accepted (s : State) : Option CmdWord :=
  if !s.inp.rst && s.regs.phase == .idle && s.inp.cmdValid then some s.inp.cmd else none

end Sys2Proof.Machine
end

