-- ==== Sys2Proof/Machine/PinInit.lean ====
section
/-! DEFINITION. INIT and the illegal command (spec/45_commands.md R151, R159). -/

namespace Sys2Proof.Machine

open Sys2Proof

/-- The registers after INIT: `PIN_OE <- 1` and `OK` when the pin subsystem is accessible, `HwUnavailable` with `PIN_OE`
kept when it is not; no pin write either way (45_commands.md R151). -/
def initEdge (gpioOk : Bool) (r : Regs) : Regs :=
  if gpioOk then respond .ok { edge r with pinOe := true } else raise .hwUnavailable r

/-- INIT at an accept edge (45_commands.md R151). -/
def execInit (s : State) : Host.Outcome State Fault Refusal :=
  .next (s.after (initEdge s.inp.gpioOk s.regs))

/-- An accepted word that is no command: `raise InvalidArgument` (45_commands.md R159, 60_exceptions.md R171). -/
def illegalWord (s : State) : State := s.after (raise .invalidArgument s.regs)

end Sys2Proof.Machine
end

