-- ==== Sys2Proof/Machine/Send.lean ====
section
/-! DEFINITION. SENDOFF and SENDON: one frame (spec/45_commands.md R152, R153). -/

namespace Sys2Proof.Machine

open Sys2Proof

/-- SENDOFF at an accept edge: `SendStart(0, group, button, 0)` (45_commands.md R152). -/
def execSendoff (group button : BitVec 4) (s : State) : Host.Outcome State Fault Refusal :=
  .next (s.after (sendStart s.cfg s.inp.gpioOk false group button sendReps s.regs))

/-- SENDON at an accept edge: `SendStart(1, group, button, 0)` (45_commands.md R153). -/
def execSendon (group button : BitVec 4) (s : State) : Host.Outcome State Fault Refusal :=
  .next (s.after (sendStart s.cfg s.inp.gpioOk true group button sendReps s.regs))

end Sys2Proof.Machine
end

