-- ==== Sys2Proof/Machine/Switch.lean ====
section
/-! DEFINITION. SWOFF and SWON: five frames (spec/45_commands.md R154, R155). -/

namespace Sys2Proof.Machine

open Sys2Proof

/-- SWOFF at an accept edge: `SendStart(0, group, button, 4)` (45_commands.md R154). -/
def execSwoff (group button : BitVec 4) (s : State) : Host.Outcome State Fault Refusal :=
  .next (s.after (sendStart s.cfg s.inp.gpioOk false group button switchReps s.regs))

/-- SWON at an accept edge: `SendStart(1, group, button, 4)` (45_commands.md R155). -/
def execSwon (group button : BitVec 4) (s : State) : Host.Outcome State Fault Refusal :=
  .next (s.after (sendStart s.cfg s.inp.gpioOk true group button switchReps s.regs))

end Sys2Proof.Machine
end

