-- ==== Sys2Proof/Machine/Dispatch.lean ====
section
/-! DEFINITION. One arm per command: its meaning at an accept edge (spec/45_commands.md R150; log 8). -/

namespace Sys2Proof.Machine

open Sys2Proof

def exec (i : Instr) (s : State) : Host.Outcome State Fault Refusal :=
  match i with
  | .init => Sys2Proof.Machine.execInit s
  | .sendoff group button => Sys2Proof.Machine.execSendoff group button s
  | .sendon group button => Sys2Proof.Machine.execSendon group button s
  | .swoff group button => Sys2Proof.Machine.execSwoff group button s
  | .swon group button => Sys2Proof.Machine.execSwon group button s

end Sys2Proof.Machine
end

