-- ==== Sys2Proof/Machine/Sequencer.lean ====
section
/-! DEFINITION. The real-time timing loop between commands: the advances, the end of a frame, the wait edges and reset
(spec/44_pulse_transmitter.md R134 to R142, 45_commands.md R157, 70_reset_and_hazards.md R190). -/

namespace Sys2Proof.Machine

open Sys2Proof

/-- The next slot of the same frame ends one pulse width after the current one: `TGT <- TGT + P`
(44_pulse_transmitter.md R131, R136 to R139). -/
def nextSlot (c : Config) (r : Regs) : Regs := { edge r with tgt := r.tgt + pulse c }

/-- Advance in PRE (44_pulse_transmitter.md R136). -/
def advancePre (c : Config) (r : Regs) : Regs :=
  if r.cnt ≠ 0 then pinWrite false { nextSlot c r with cnt := down r.cnt }
  else pinWrite true { nextSlot c r with phase := .sync }

/-- Advance in SYNC: the first payload bit begins (44_pulse_transmitter.md R137). -/
def advanceSync (c : Config) (r : Regs) : Regs :=
  pinWrite r.tog { nextSlot c r with phase := .pay, run := runLoad (r.shreg.getLsbD 0) }

/-- The current payload bit is finished: the toggling state flips, `SHREG <- SHREG div 2` and `BITCNT` counts down
(44_pulse_transmitter.md R138, 10_state.md R23 to R25). -/
def finishBit (c : Config) (r : Regs) : Regs :=
  { nextSlot c r with
    tog := !r.tog
    shreg := r.shreg >>> 1
    bitcnt := bitcntDown r.now r.bitcnt }

/-- Advance in PAY: another slot of the current bit, the first slot of the next bit, or the first slot of the postamble
(44_pulse_transmitter.md R138). -/
def advancePay (c : Config) (r : Regs) : Regs :=
  if r.run ≠ 0 then pinWrite r.tog { nextSlot c r with run := down r.run }
  else if r.bitcnt ≠ 1 then
    pinWrite (!r.tog) { finishBit c r with run := runLoad (r.shreg.getLsbD 1) }
  else
    pinWrite false { finishBit c r with phase := .post, cnt := ⟨postLen - 1, by decide⟩ }

/-- `EndFrame`, the Repeater: the command completes, or is cut short because the pin subsystem is not accessible, or its
next frame starts at this same edge (45_commands.md R157). -/
def endFrame (c : Config) (gpioOk : Bool) (r : Regs) : Regs :=
  if r.rep = 0 then respond .ok { edge r with phase := .idle }
  else if gpioOk then
    startFrame c r.now r.selG r.selB r.selOn { edge r with rep := down r.rep }
  else respond .hwUnavailable { edge r with phase := .idle, rep := 0 }

/-- Advance in POST, or the end of the frame (44_pulse_transmitter.md R139). -/
def advancePost (c : Config) (gpioOk : Bool) (r : Regs) : Regs :=
  if r.cnt ≠ 0 then pinWrite false { nextSlot c r with cnt := down r.cnt } else endFrame c gpioOk r

/-- An edge with `rst = 0` at which no command is accepted (44_pulse_transmitter.md R142): in IDLE, and at a wait edge
(R134), nothing but what every edge writes; at a due edge, the advance of the phase. From a state outside 10_state.md R34, where
the spec leaves the edge open, it follows the rules' text (log 6). -/
def runEdge (c : Config) (gpioOk : Bool) (r : Regs) : Regs :=
  match r.phase with
  | .idle => edge r
  | .pre => if due r.now r.tgt then advancePre c r else edge r
  | .sync => if due r.now r.tgt then advanceSync c r else edge r
  | .pay => if due r.now r.tgt then advancePay c r else edge r
  | .post => if due r.now r.tgt then advancePost c gpioOk r else edge r

/-- The state after an edge at which no command is accepted: every register at its reset value when `rst = 1`, whatever
it held (70_reset_and_hazards.md R190), else `runEdge`. -/
def uncommandedEdge (s : State) : State :=
  s.after (if s.inp.rst then Regs.reset else runEdge s.cfg s.inp.gpioOk s.regs)

end Sys2Proof.Machine
end

