-- ==== Sys2Proof/Machine/Step.lean ====
section
/-! DEFINITION. One step is one edge of the clock: `Tick` of spec/44_pulse_transmitter.md R142. -/

namespace Sys2Proof.Machine

open Sys2Proof

/-- `Tick` (R142). At an accept edge the word on `cmd` is decoded and executed at that same edge (45_commands.md R150);
at every other edge the block resets, idles, waits or advances. -/
def step (s : State) : Host.Outcome State Fault Refusal :=
  match s.accepted with
  | some c =>
    match decode c with
    | .ok i => exec i s
    | .error _ => .next (illegalWord s)
  | none => .next (uncommandedEdge s)

/-- `s` with one edge put before everything the host was going to do: the block is idle and the table word `w` is
presented on the command port, so that the very next step accepts it; `gpio_ok` is as it was, and from the edge after on
the host drives what it drove before (log 11). -/
def State.withFetchWord (s : State) (nbits w : Nat) : State :=
  { s with
    regs := { s.regs with phase := .idle }
    inp := { rst := false, cmdValid := true, cmd := tableWord nbits w, gpioOk := s.inp.gpioOk }
    later := s.inp :: s.later }

end Sys2Proof.Machine
end

