-- ==== Sys2Proof/Machine/Trace.lean ====
section
/-! DEFINITION. What is observed of a run: the pin writes with their times, and the responses (spec/00_scope.md R8,
70_reset_and_hazards.md R202, 92_eei_decisions.md D26); and the host's levels edge by edge. -/

namespace Sys2Proof.Machine

open Sys2Proof

/-- `s` after the host alone has moved on by one edge. -/
def State.hostNext (s : State) : State := { s with inp := s.nextInputs, later := s.later.tail }

/-- The levels that the edge number `k` from now samples, the next edge being number 0. -/
def State.inputAt (s : State) : Nat → Inputs
  | 0 => s.inp
  | k + 1 => s.hostNext.inputAt k

/-- What `k` edges showed: the `(time, level)` pairs of their pin writes, the time being `NOW` before the edge, the
responses given, and the state reached (70_reset_and_hazards.md R202; DEDUCED, log 13). -/
structure Observed where
  writes : List (Word × Level)
  responses : List Resp
  final : State
deriving DecidableEq, Repr

/-- The pin write of an edge from `r` to `n`: `PIN_WR` is 1 after exactly the edges that made one (10_state.md R19). -/
def edgeWrites (r n : Regs) : List (Word × Level) := if n.pinWr then [(r.now, n.pinLvl)] else []

/-- The response given at an edge to `n`: `DONE` is 1 after exactly the edges that completed a command (10_state.md
R29). -/
def edgeResponses (n : Regs) : List Resp := if n.done then [n.resp] else []

/-- `k` edges from `s`, observed; nothing where a step stopped. -/
def observe : Nat → State → Option Observed
  | 0, s => some ⟨[], [], s⟩
  | k + 1, s =>
    match step s with
    | .next t =>
      (observe k t).map fun o =>
        ⟨edgeWrites s.regs t.regs ++ o.writes, edgeResponses t.regs ++ o.responses, o.final⟩
    | _ => none

end Sys2Proof.Machine
end

