-- ==== Sys2Proof/Machine/Waveform.lean ====
section
/-! DEFINITION. The pure functions the sequencer is a realisation of (spec files 40 to 44): `toBits`, `encode`, `frame`,
`commandBits`, `Schedule`. No step calls them; claims about the pin are stated in them. -/

namespace Sys2Proof.Machine

open Sys2Proof

/-- The condition `InvalidArgument` at the level of the pure functions: the function has no result for that argument
(00_scope.md R8). -/
inductive ArgError where
  | invalidArgument
deriving DecidableEq, Repr

/-- The `width` least significant bits of a number, least significant first: mask, then shift (40_bit_encoder.md
R90). -/
def lsbFirst : Nat → Nat → List Bit
  | _, 0 => []
  | v, w + 1 => decide (v % 2 = 1) :: lsbFirst (v / 2) w

/-- `toBits(value, width)`: the width is any integer and is rejected outside 1..32, never truncated
(40_bit_encoder.md R90, R91). -/
def toBits (value : Nat) (width : Int) : Except ArgError (List Bit) :=
  if width < 1 ∨ width > wMax then .error .invalidArgument else .ok (lsbFirst value width.toNat)

/-- `fromBits`: the number whose bits, least significant first, are the sequence (40_bit_encoder.md R93). -/
def fromBits : List Bit → Nat
  | [] => 0
  | b :: bs => (if b then 1 else 0) + 2 * fromBits bs

/-- The number of 1 elements of a Bit Sequence (41_waveform_encoder.md R101). -/
def ones (bits : List Bit) : Nat := bits.count true

/-- The run of slots of one bit at a level: one slot for a 0, three for a 1 (30_encoding.md R67). -/
def bitRun (state : Level) (bit : Bit) : List Level :=
  List.replicate (if bit then slotsOne else slotsZero) state

/-- `encode` from a given toggling state (41_waveform_encoder.md R100). -/
def encodeFrom : Level → List Bit → List Level
  | _, [] => []
  | state, b :: bs => bitRun state b ++ encodeFrom (!state) bs

/-- `encode(bits)`: the toggling state starts at 0 (41_waveform_encoder.md R100). -/
def encodeBits (bits : List Bit) : List Level := encodeFrom false bits

/-- `frame(bits)`: preamble, sync, encoded payload, postamble (42_packet_framer.md R110). -/
def frame (bits : List Bit) : List Level :=
  List.replicate preLen false ++ List.replicate syncLen true ++ encodeBits bits ++ List.replicate postLen false

/-- `commandBits(group, button, on)`: the selectors are any integers and are rejected outside 1..4 before any lookup
(43_command_table.md R120, R121). -/
def commandBits (c : Config) (group button : Int) (on : Bool) : Except ArgError (List Bit) :=
  if h : 1 ≤ group ∧ group ≤ 4 ∧ 1 ≤ button ∧ button ≤ 4 then
    match toBits (romCh c ⟨group.toNat - 1, by omega⟩ ⟨button.toNat - 1, by omega⟩).toNat nCh,
      toBits (romAct on).toNat nAct with
    | .ok channel, .ok action => .ok (channel ++ action)
    | .error e, _ => .error e
    | _, .error e => .error e
  else .error .invalidArgument

/-- `popcount(v)`: the number of 1 bits (00_scope.md R8). -/
def popcount {n : Nat} (v : BitVec n) : Nat := (List.range n).countP fun i => v.getLsbD i

/-- `Schedule(levels, t0, P)`: level `i` is written at time `t0 + i P` (44_pulse_transmitter.md R130). -/
def schedule (levels : List Level) (t0 p : Nat) : List (Nat × Level) :=
  levels.mapIdx fun i level => (t0 + i * p, level)

/-- `End(levels, t0, P)`: the time at which the last level's slot ends (44_pulse_transmitter.md R130). -/
def scheduleEnd (levels : List Level) (t0 p : Nat) : Nat := t0 + levels.length * p

/-- A schedule with its times taken modulo `2^32`, as `NOW` shows them (44_pulse_transmitter.md R141). -/
def wrapTimes (writes : List (Nat × Level)) : List (Word × Level) :=
  writes.map fun w => (BitVec.ofNat 32 w.1, w.2)

/-- A Level Sequence sent `k` times in immediate succession (45_commands.md R157, R158). -/
def repeatLevels (k : Nat) (levels : List Level) : List Level := (List.replicate k levels).flatten

end Sys2Proof.Machine
end

