-- ==== Sys2Proof/Safety.lean ====
section
/-! DEFINITION. What a claim about the block may take for granted: the invariants of spec/10_state.md R34 and the launch
premises of 70_reset_and_hazards.md R204. -/

namespace Sys2Proof.Machine

open Sys2Proof

/-- The invariants of 10_state.md R34, by its item numbers, beside the constraints on the instance's parameters
(00_scope.md R6, R7). Item 1 is the registers' types (log 5). -/
structure State.Inv (s : State) : Prop where
  /-- R6 and R7 -/
  cfg : s.cfg.wf
  /-- item 2 -/
  notOutput : s.regs.pinOe = false → s.regs.phase = .idle ∧ s.regs.pinLvl = false
  /-- item 3 -/
  idle : s.regs.phase = .idle → s.regs.pinLvl = false ∧ s.regs.rep = 0 ∧ s.regs.bitcnt = 0 ∧ s.regs.shreg = 0 ∧
    s.regs.tog = false ∧ s.regs.run = 0 ∧ s.regs.cnt = 0
  /-- item 4 -/
  pre : s.regs.phase = .pre → s.regs.pinLvl = false ∧ s.regs.bitcnt = 48 ∧ s.regs.tog = false ∧ s.regs.run = 0
  /-- item 5 -/
  sync : s.regs.phase = .sync → s.regs.pinLvl = true ∧ s.regs.bitcnt = 48 ∧ s.regs.tog = false ∧ s.regs.run = 0 ∧
    s.regs.cnt = 0
  /-- item 6 -/
  pay : s.regs.phase = .pay → s.regs.pinLvl = s.regs.tog ∧ 1 ≤ s.regs.bitcnt.val ∧
    s.regs.tog = decide ((48 - s.regs.bitcnt.val) % 2 = 1) ∧ s.regs.shreg.toNat < 2 ^ s.regs.bitcnt.val ∧
    (s.regs.run ≠ 0 → s.regs.shreg.getLsbD 0 = true)
  /-- item 7 -/
  post : s.regs.phase = .post → s.regs.pinLvl = false ∧ s.regs.bitcnt = 0 ∧ s.regs.shreg = 0 ∧ s.regs.tog = false ∧
    s.regs.run = 0 ∧ s.regs.cnt.val ≤ 1
  /-- item 8, first half -/
  done : s.regs.done = true → s.regs.phase = .idle
  /-- item 8, second half -/
  pinWr : s.regs.pinWr = true → s.regs.phase ≠ .idle
  /-- item 9: the target is at or ahead of `NOW` by less than one slot -/
  target : s.regs.phase ≠ .idle → (s.regs.tgt - s.regs.now).toNat ≤ s.cfg.pulseTicks - 1

/-- The host holds `rst = 0` at the next `k` edges (70_reset_and_hazards.md R204, premise 4). -/
def State.noReset (s : State) (k : Nat) : Prop := ∀ j < k, (s.inputAt j).rst = false

/-- The host presents the word `c` at the next edge and the block accepts it: the block is idle and `cmd_valid = 1`
(45_commands.md R150; R204, premise 3). -/
def State.presents (s : State) (c : CmdWord) : Prop :=
  s.inp.rst = false ∧ s.regs.phase = .idle ∧ s.inp.cmdValid = true ∧ s.inp.cmd = c

end Sys2Proof.Machine
end

