-- ==== Sys2Proof/Certificates/Slice0/Obligations.lean ====
section
/-! DEFINITION. The statements for the provers. Each docstring names the rule of spec/ it formalises. Nothing is stated
about a value the model chose but where a docstring says so; statements about a step or a command quantify over every instance of the block (every
pulse width and Channel Code table) and every behaviour of the host. -/

open Sys2Proof Sys2Proof.Machine

/-! ### Command words -/

/-- A few words written out bit by bit from the opcode map (30_encoding.md R60, R62), one for each row, and what they
decode to. -/
def Obligations.CommandWordsDecodeAsWritten : Prop :=
  decode 0b0001000000000000#16 = .ok .init ∧
    decode 0b0010000000100011#16 = .ok (.sendoff 2 3) ∧
    decode 0b0011000001000001#16 = .ok (.sendon 4 1) ∧
    decode 0b0100000001000100#16 = .ok (.swoff 4 4) ∧
    decode 0b0101000000110010#16 = .ok (.swon 3 2) ∧
    decode 0b0000000000010001#16 = .error .reservedOp ∧
    decode 0b0001000000000001#16 = .error .initOperandBits ∧
    decode 0b0101000100010001#16 = .error .reservedBits

/-- R64: the encoder is the inverse of the decoder, for every command with every value of its fields; for a legal command
the function `Decode` of R64 gives the command back too. -/
def Obligations.DecodeOfEncodeIsTheCommand : Prop :=
  ∀ i : Instr, decode (encode i) = .ok i ∧ (i.wellFormed = true → decodeCmd (encode i) = i.toCmd)

/-- R62, R63: no word but a command's own encoding decodes to it. -/
def Obligations.OnlyTheEncodingDecodesToACommand : Prop :=
  ∀ (c : CmdWord) (i : Instr), decode c = .ok i → encode i = c

/-- R62, R64: selecting the row and then checking its operands is the function `Decode` of R64, on all 65536 words. -/
def Obligations.RowAndOperandCheckAreDecodeOfR64 : Prop :=
  ∀ c : CmdWord, decodeCmd c =
    match decode c with
    | .ok i => if i.wellFormed then i.toCmd else .illegal
    | .error _ => .illegal

/-- R63: which words are illegal, case by case, and that exactly 65 words are not. -/
def Obligations.IllegalWordsAreThoseOfR63 : Prop :=
  (∀ c : CmdWord, decodeCmd c = .illegal ↔
    (c.extractLsb' 12 4).toNat = 0 ∨ 6 ≤ (c.extractLsb' 12 4).toNat ∨
    ((c.extractLsb' 12 4).toNat = 1 ∧ (c.extractLsb' 0 12).toNat ≠ 0) ∨
    (2 ≤ (c.extractLsb' 12 4).toNat ∧ (c.extractLsb' 12 4).toNat ≤ 5 ∧
      ((c.extractLsb' 8 4).toNat ≠ 0 ∨
        (c.extractLsb' 4 4).toNat = 0 ∨ 5 ≤ (c.extractLsb' 4 4).toNat ∨
        (c.extractLsb' 0 4).toNat = 0 ∨ 5 ≤ (c.extractLsb' 0 4).toNat))) ∧
  ∃ legal : List CmdWord, legal.Nodup ∧ legal.length = 65 ∧ ∀ c, c ∈ legal ↔ decodeCmd c ≠ .illegal

/-! ### The step -/

/-- R142: a step always answers a next state and never changes the instance's parameters (R6, R7, R32); that it moves the
host's levels on by one edge is the model's choice (log 1). -/
def Obligations.EveryStepIsNextAndKeepsTheInstance : Prop :=
  ∀ s : State, ∃ t, step s = .next t ∧ t.cfg = s.cfg ∧ t.inp = s.later.head?.getD s.inp ∧ t.later = s.later.tail

/-- R150: at an accept edge the word on `cmd` is decoded and executed at that same edge. -/
def Obligations.StepRunsTheDecodedCommand : Prop :=
  ∀ (s : State) (c : CmdWord) (i : Instr), s.presents c → decode c = .ok i → step s = exec i s

/-- R159, R174: an accepted illegal word answers `InvalidArgument`; no other register but `NOW` and `PIN_WR` is
written. -/
def Obligations.IllegalWordAnswersInvalidArgument : Prop :=
  ∀ (s : State) (c : CmdWord), s.presents c → decodeCmd c = .illegal →
    step s = .next (s.after
      { s.regs with now := s.regs.now + 1, pinWr := false, done := true, resp := .invalidArgument })

/-- R35: at an edge with `rst = 1` every register takes its reset value, whatever it held and whatever the other inputs
are; the outputs after it. -/
def Obligations.ResetEdgeResetsEveryRegister : Prop :=
  ∀ s : State, s.inp.rst = true → ∃ n : Regs,
    step s = .next (s.after n) ∧
      n = { now := 0, tgt := 0, pinOe := false, pinLvl := false, pinWr := false, phase := .idle, cnt := 0, shreg := 0,
            bitcnt := 0, tog := false, run := 0, rep := 0, selG := 0, selB := 0, selOn := false, done := false,
            resp := .ok } ∧
      n.outputs =
        { cmdReady := true, busy := false, pinOut := false, pinOe := false, pinWr := false, done := false, resp := 0 }

/-- R35, R191: the registers of the state after reset, and the outputs there. -/
def Obligations.ResetStateHoldsTheResetValues : Prop :=
  State.reset.regs =
      { now := 0, tgt := 0, pinOe := false, pinLvl := false, pinWr := false, phase := .idle, cnt := 0, shreg := 0,
        bitcnt := 0, tog := false, run := 0, rep := 0, selG := 0, selB := 0, selOn := false, done := false,
        resp := .ok } ∧
    State.reset.regs.outputs =
      { cmdReady := true, busy := false, pinOut := false, pinOe := false, pinWr := false, done := false, resp := 0 }

/-- R11: every output from the registers. -/
def Obligations.OutputsAreFunctionsOfTheRegisters : Prop :=
  ∀ r : Regs,
    (r.outputs.cmdReady = true ↔ r.phase = .idle) ∧ r.outputs.busy = !r.outputs.cmdReady ∧
      r.outputs.pinOut = r.pinLvl ∧ r.outputs.pinOe = r.pinOe ∧ r.outputs.pinWr = r.pinWr ∧
      r.outputs.done = r.done ∧
      r.outputs.resp = match r.resp with
        | .ok => 0#2
        | .invalidArgument => 1#2
        | .hwUnavailable => 2#2

/-! ### The commands at their accept edge -/

/-- R151: with the pin subsystem accessible INIT puts the pin in output mode and answers `OK`; with it inaccessible INIT
answers `HwUnavailable` and `PIN_OE` keeps its value; either way nothing else is written but `NOW` and `PIN_WR`. -/
def Obligations.InitPutsThePinInOutputModeOrIsRefused : Prop :=
  ∀ s : State, s.presents 0x1000#16 →
    (s.inp.gpioOk = true →
      exec .init s = .next (s.after
        { s.regs with now := s.regs.now + 1, pinOe := true, pinWr := false, done := true, resp := .ok })) ∧
    (s.inp.gpioOk = false →
      exec .init s = .next (s.after
        { s.regs with now := s.regs.now + 1, pinWr := false, done := true, resp := .hwUnavailable }))

/-- R152, R153, R156, R135: SENDOFF and SENDON start one frame with no further frame to come; every register not named
keeps its value, `RESP` among them. -/
def Obligations.SendStartsOneFrame : Prop :=
  ∀ (s : State) (group button : BitVec 4) (gi bi : Fin 4),
    group.toNat = gi.val + 1 → button.toNat = bi.val + 1 → s.regs.pinOe = true → s.inp.gpioOk = true →
    (s.presents (encode (.sendoff group button)) →
      exec (.sendoff group button) s = .next (s.after
        { s.regs with
          now := s.regs.now + 1, tgt := s.regs.now + BitVec.ofNat 32 s.cfg.pulseTicks
          pinLvl := false, pinWr := true, phase := .pre, cnt := 25
          shreg := 0x5333#16 ++ (s.cfg.channelCode.get gi).get bi, bitcnt := 48, tog := false, run := 0
          rep := 0, selG := gi, selB := bi, selOn := false, done := false })) ∧
    (s.presents (encode (.sendon group button)) →
      exec (.sendon group button) s = .next (s.after
        { s.regs with
          now := s.regs.now + 1, tgt := s.regs.now + BitVec.ofNat 32 s.cfg.pulseTicks
          pinLvl := false, pinWr := true, phase := .pre, cnt := 25
          shreg := 0x3333#16 ++ (s.cfg.channelCode.get gi).get bi, bitcnt := 48, tog := false, run := 0
          rep := 0, selG := gi, selB := bi, selOn := true, done := false }))

/-- R154, R155, R156, R135: SWOFF and SWON start the first of five frames; every register not named keeps its value. -/
def Obligations.SwitchStartsTheFirstOfFiveFrames : Prop :=
  ∀ (s : State) (group button : BitVec 4) (gi bi : Fin 4),
    group.toNat = gi.val + 1 → button.toNat = bi.val + 1 → s.regs.pinOe = true → s.inp.gpioOk = true →
    (s.presents (encode (.swoff group button)) →
      exec (.swoff group button) s = .next (s.after
        { s.regs with
          now := s.regs.now + 1, tgt := s.regs.now + BitVec.ofNat 32 s.cfg.pulseTicks
          pinLvl := false, pinWr := true, phase := .pre, cnt := 25
          shreg := 0x5333#16 ++ (s.cfg.channelCode.get gi).get bi, bitcnt := 48, tog := false, run := 0
          rep := 4, selG := gi, selB := bi, selOn := false, done := false })) ∧
    (s.presents (encode (.swon group button)) →
      exec (.swon group button) s = .next (s.after
        { s.regs with
          now := s.regs.now + 1, tgt := s.regs.now + BitVec.ofNat 32 s.cfg.pulseTicks
          pinLvl := false, pinWr := true, phase := .pre, cnt := 25
          shreg := 0x3333#16 ++ (s.cfg.channelCode.get gi).get bi, bitcnt := 48, tog := false, run := 0
          rep := 4, selG := gi, selB := bi, selOn := true, done := false }))

/-- R156, R172 (first two rows), R174: a legal SEND or SWITCH while the pin is not initialised or not accessible answers
`HwUnavailable` and touches nothing else. -/
def Obligations.UnavailablePinRefusesALegalTransmission : Prop :=
  ∀ (s : State) (i : Instr), s.presents (encode i) → i ≠ .init → i.wellFormed = true →
    s.regs.pinOe = false ∨ s.inp.gpioOk = false →
    exec i s = .next (s.after
      { s.regs with now := s.regs.now + 1, pinWr := false, done := true, resp := .hwUnavailable })

/-- R121, R159, R175: a selector outside 1..4 answers `InvalidArgument`, whether or not the pin is available: the
selection is checked first. -/
def Obligations.BadSelectionAnswersInvalidArgumentFirst : Prop :=
  ∀ (s : State) (i : Instr), s.presents (encode i) → i.wellFormed = false →
    exec i s = .next (s.after
      { s.regs with now := s.regs.now + 1, pinWr := false, done := true, resp := .invalidArgument })

/-! ### The sequencer, edge by edge -/

/-- R136. -/
def Obligations.AdvanceInThePreamble : Prop :=
  ∀ s : State, s.inp.rst = false → s.regs.phase = .pre → (s.regs.now - s.regs.tgt).toNat < 2 ^ 31 →
    (∀ k : Fin 26, s.regs.cnt.val = k.val + 1 →
      step s = .next (s.after
        { s.regs with
          now := s.regs.now + 1, tgt := s.regs.tgt + BitVec.ofNat 32 s.cfg.pulseTicks, done := false
          cnt := k, pinLvl := false, pinWr := true })) ∧
    (s.regs.cnt = 0 →
      step s = .next (s.after
        { s.regs with
          now := s.regs.now + 1, tgt := s.regs.tgt + BitVec.ofNat 32 s.cfg.pulseTicks, done := false
          phase := .sync, pinLvl := true, pinWr := true }))

/-- R137. -/
def Obligations.AdvanceFromTheSyncSlot : Prop :=
  ∀ s : State, s.inp.rst = false → s.regs.phase = .sync → (s.regs.now - s.regs.tgt).toNat < 2 ^ 31 →
    step s = .next (s.after
      { s.regs with
        now := s.regs.now + 1, tgt := s.regs.tgt + BitVec.ofNat 32 s.cfg.pulseTicks, done := false
        phase := .pay, pinLvl := s.regs.tog, pinWr := true
        run := if s.regs.shreg.getLsbD 0 = true then 2 else 0 })

/-- R138. In PAY with no payload bit left, where no reachable state is (10_state.md R34 item 6), everything is as R138
says but the new `BITCNT`, which may be any value (log 7). -/
def Obligations.AdvanceInThePayload : Prop :=
  ∀ s : State, s.inp.rst = false → s.regs.phase = .pay → (s.regs.now - s.regs.tgt).toNat < 2 ^ 31 →
    (∀ k : Fin 3, s.regs.run.val = k.val + 1 →
      step s = .next (s.after
        { s.regs with
          now := s.regs.now + 1, tgt := s.regs.tgt + BitVec.ofNat 32 s.cfg.pulseTicks, done := false
          run := k, pinLvl := s.regs.tog, pinWr := true })) ∧
    (∀ k : Fin 49, s.regs.run = 0 → s.regs.bitcnt.val = k.val + 1 → 1 ≤ k.val →
      step s = .next (s.after
        { s.regs with
          now := s.regs.now + 1, tgt := s.regs.tgt + BitVec.ofNat 32 s.cfg.pulseTicks, done := false
          tog := !s.regs.tog, shreg := s.regs.shreg >>> 1, bitcnt := k, pinLvl := !s.regs.tog, pinWr := true
          run := if s.regs.shreg.getLsbD 1 = true then 2 else 0 })) ∧
    (s.regs.run = 0 → s.regs.bitcnt = 0 → ∃ k : Fin 49,
      step s = .next (s.after
        { s.regs with
          now := s.regs.now + 1, tgt := s.regs.tgt + BitVec.ofNat 32 s.cfg.pulseTicks, done := false
          tog := !s.regs.tog, shreg := s.regs.shreg >>> 1, bitcnt := k, pinLvl := !s.regs.tog, pinWr := true
          run := if s.regs.shreg.getLsbD 1 = true then 2 else 0 })) ∧
    (s.regs.run = 0 → s.regs.bitcnt = 1 →
      step s = .next (s.after
        { s.regs with
          now := s.regs.now + 1, tgt := s.regs.tgt + BitVec.ofNat 32 s.cfg.pulseTicks, done := false
          tog := !s.regs.tog, shreg := s.regs.shreg >>> 1, bitcnt := 0, phase := .post, cnt := 1
          pinLvl := false, pinWr := true }))

/-- R139, R157: the second postamble slot, and the three ends of a frame: the command completes, its next frame starts at
the same edge, or it is cut short because the pin subsystem is inaccessible. -/
def Obligations.AdvanceInThePostambleAndEndOfFrame : Prop :=
  ∀ s : State, s.inp.rst = false → s.regs.phase = .post → (s.regs.now - s.regs.tgt).toNat < 2 ^ 31 →
    (∀ k : Fin 26, s.regs.cnt.val = k.val + 1 →
      step s = .next (s.after
        { s.regs with
          now := s.regs.now + 1, tgt := s.regs.tgt + BitVec.ofNat 32 s.cfg.pulseTicks, done := false
          cnt := k, pinLvl := false, pinWr := true })) ∧
    (s.regs.cnt = 0 → s.regs.rep = 0 →
      step s = .next (s.after
        { s.regs with now := s.regs.now + 1, pinWr := false, phase := .idle, resp := .ok, done := true })) ∧
    (s.regs.cnt = 0 → s.regs.rep ≠ 0 → s.inp.gpioOk = false →
      step s = .next (s.after
        { s.regs with
          now := s.regs.now + 1, pinWr := false, phase := .idle, rep := 0, resp := .hwUnavailable, done := true })) ∧
    (∀ k : Fin 5, s.regs.cnt = 0 → s.regs.rep.val = k.val + 1 → s.inp.gpioOk = true →
      step s = .next (s.after
        { s.regs with
          now := s.regs.now + 1, tgt := s.regs.now + BitVec.ofNat 32 s.cfg.pulseTicks, done := false
          pinLvl := false, pinWr := true, phase := .pre, cnt := 25
          shreg := (if s.regs.selOn = true then 0x3333#16 else 0x5333#16) ++
            (s.cfg.channelCode.get s.regs.selG).get s.regs.selB
          bitcnt := 48, tog := false, run := 0, rep := k }))

/-- R134, R142: a wait edge, and an edge in IDLE at which no command is presented, write `NOW`, `PIN_WR <- 0`,
`DONE <- 0` and nothing else. -/
def Obligations.WaitAndIdleEdgesOnlyCount : Prop :=
  ∀ s : State, s.inp.rst = false →
    (s.regs.phase ≠ .idle ∧ 2 ^ 31 ≤ (s.regs.now - s.regs.tgt).toNat) ∨
      (s.regs.phase = .idle ∧ s.inp.cmdValid = false) →
    step s = .next (s.after { s.regs with now := s.regs.now + 1, pinWr := false, done := false })

/-! ### Time -/

/-- R132: the modular test agrees with `NOW >= TGT` on unbounded times whenever the true difference is within
`2^31 - 1` ticks either way. -/
def Obligations.DueIsTheOrderOfUnboundedTimes : Prop :=
  ∀ now tgt : Nat, now ≤ tgt + (2 ^ 31 - 1) → tgt ≤ now + (2 ^ 31 - 1) →
    (due (BitVec.ofNat 32 now) (BitVec.ofNat 32 tgt) = true ↔ tgt ≤ now)

/-- R132: during a transmission the test is true exactly at the edge at which `NOW = TGT`. -/
def Obligations.TransmissionIsDueExactlyAtItsTarget : Prop :=
  ∀ s : State, s.Inv → s.regs.phase ≠ .idle →
    (due s.regs.now s.regs.tgt = true ↔ s.regs.now = s.regs.tgt)

/-- R15: `NOW` counts every edge with `rst = 0`, whatever else happens, wraps from `2^32 - 1` to 0, and is 0 after a reset
edge. -/
def Obligations.NowCountsEveryEdge : Prop :=
  ∀ s t : State, step s = .next t →
    (s.inp.rst = false → t.regs.now.toNat = (s.regs.now.toNat + 1) % 2 ^ 32) ∧ (s.inp.rst = true → t.regs.now = 0)

/-- R134, R135, R16: every pin write sets the target one pulse width after the edge it is made at, and the target keeps
its value at every other edge. -/
def Obligations.PinWriteSetsTheTargetOnePulseAhead : Prop :=
  ∀ s t : State, s.Inv → s.inp.rst = false → step s = .next t →
    (t.regs.pinWr = true → t.regs.tgt = s.regs.now + BitVec.ofNat 32 s.cfg.pulseTicks) ∧
      (t.regs.pinWr = false → t.regs.tgt = s.regs.tgt)

/-! ### Rules about the whole machine -/

/-- R34 holds in the reset state; the constraints of R6 and R7 on the instance do so by the model's choice of that instance
(log 4). -/
def Obligations.ResetStateMeetsTheInvariants : Prop := State.reset.Inv

/-- R34 is preserved by every step, whatever the host does. -/
def Obligations.EveryStepKeepsTheInvariants : Prop :=
  ∀ s t : State, s.Inv → step s = .next t → t.Inv

/-- R17: `PIN_OE` is set only by a successful INIT and cleared only by reset. -/
def Obligations.OnlyInitSetsAndOnlyResetClearsPinOe : Prop :=
  ∀ s t : State, step s = .next t →
    (s.regs.pinOe = false → t.regs.pinOe = true → s.presents 0x1000#16 ∧ s.inp.gpioOk = true) ∧
      (s.regs.pinOe = true → t.regs.pinOe = false → s.inp.rst = true)

/-- R18, R133: at an edge that makes no pin write the level on the pin keeps its value. -/
def Obligations.PinLevelHoldsBetweenWrites : Prop :=
  ∀ s t : State, s.inp.rst = false → step s = .next t → t.regs.pinWr = false → t.regs.pinLvl = s.regs.pinLvl

/-- R29, R30: `DONE` is 1 after exactly the edges at which a command completed (an accepted command that leaves the block
idle, or a frame end that does), and `RESP` keeps its value at every other edge. -/
def Obligations.DoneMarksCompletionAndRespHoldsOtherwise : Prop :=
  ∀ s t : State, s.inp.rst = false → step s = .next t →
    (t.regs.done = true ↔
      t.regs.phase = .idle ∧ ((s.regs.phase = .idle ∧ s.inp.cmdValid = true) ∨ s.regs.phase ≠ .idle)) ∧
      (t.regs.done = false → t.regs.resp = s.regs.resp)

/-- R28: the latched selection is written only when a SEND or SWITCH is accepted and started. -/
def Obligations.SelectionIsLatchedOnlyAtAStart : Prop :=
  ∀ s t : State, s.inp.rst = false → step s = .next t →
    ¬(t.regs.selG = s.regs.selG ∧ t.regs.selB = s.regs.selB ∧ t.regs.selOn = s.regs.selOn) →
    ∃ i : Instr, i ≠ .init ∧ i.wellFormed = true ∧ s.presents (encode i) ∧ s.regs.pinOe = true ∧
      s.inp.gpioOk = true ∧ t.regs.phase = .pre

/-- R143, R178: while a frame is in flight nothing the host does short of reset changes what the block does: two states
that differ only in the host's side step to the same registers, but for the one edge at which a further frame is about
to start. -/
def Obligations.HostCannotInfluenceAFrameInFlight : Prop :=
  ∀ s t : State, s.cfg = t.cfg → s.regs = t.regs → s.inp.rst = false → t.inp.rst = false → s.regs.phase ≠ .idle →
    ¬(s.regs.phase = .post ∧ s.regs.cnt = 0 ∧ s.regs.rep ≠ 0 ∧ due s.regs.now s.regs.tgt = true) →
    ∃ n : Regs, step s = .next (s.after n) ∧ step t = .next (t.after n)

/-! ### The pure functions -/

/-- R90, R93: the bits of a number, least significant first, and that they give the number back modulo `2^width`. -/
def Obligations.ToBitsGivesTheNumberBackModuloItsWidth : Prop :=
  ∀ v w : Nat, 1 ≤ w → w ≤ 32 → ∃ bits, toBits v w = .ok bits ∧ bits.length = w ∧
    (∀ i, i < w → bits[i]? = some (decide (v / 2 ^ i % 2 = 1))) ∧ fromBits bits = v % 2 ^ w

/-- R91, R92: a width outside 1..32 is rejected and never truncated; a value wider than the width loses its high bits. -/
def Obligations.ToBitsRejectsWidthsAndDropsHighBits : Prop :=
  (∀ (v : Nat) (w : Int), w < 1 ∨ 32 < w → toBits v w = .error .invalidArgument) ∧
    ∀ v w : Nat, toBits v w = toBits (v % 2 ^ w) w

/-- R101, R102: the length law of `encode`, and the empty sequence. -/
def Obligations.EncodedLengthIsOneOrThreeSlotsPerBit : Prop :=
  encodeBits [] = [] ∧
    ∀ bits : List Bit,
      (encodeBits bits).length = (bits.map fun b => if b = true then 3 else 1).sum ∧
        (encodeBits bits).length = bits.length + 2 * bits.count true ∧
        bits.length ≤ (encodeBits bits).length ∧ (encodeBits bits).length ≤ 3 * bits.length

/-- R100: `encode` is the concatenation of the runs `rep(k mod 2, 1 + 2 bits[k])`. -/
def Obligations.EncodeIsTheConcatenationOfItsRuns : Prop :=
  ∀ bits : List Bit, encodeBits bits =
    (bits.mapIdx fun k b => List.replicate (1 + 2 * (if b = true then 1 else 0)) (decide (k % 2 = 1))).flatten

/-- R103 items 4 and 5: `encode` is injective, and how it splits over a concatenation. -/
def Obligations.EncodeIsInjectiveAndSplits : Prop :=
  (∀ a b : List Bit, encodeBits a = encodeBits b → a = b) ∧
    ∀ a b : List Bit, encodeBits (a ++ b) =
      encodeBits a ++ (if a.length % 2 = 0 then encodeBits b else (encodeBits b).map (!·))

/-- R103 items 1 and 3: the first level is 0, and the last is 1 exactly when the number of bits is even. -/
def Obligations.EncodedLevelsStartLowAndEndByParity : Prop :=
  ∀ bits : List Bit, bits ≠ [] →
    (encodeBits bits).head? = some false ∧ (encodeBits bits).getLast? = some (decide (bits.length % 2 = 0))

/-- R110, R111: the four parts of a frame and its length. -/
def Obligations.FrameIsPreambleSyncPayloadPostamble : Prop :=
  ∀ bits : List Bit,
    frame bits = List.replicate 26 false ++ [true] ++ encodeBits bits ++ [false, false] ∧
      (frame bits).length = 26 + 1 + (encodeBits bits).length + 2 ∧
      (frame bits).length = 29 + bits.length + 2 * bits.count true

/-- R113 items 1, 2, 3 and 5: the levels at the seams of a frame, where its first 1 stands, and that frames tell their
payloads apart. -/
def Obligations.FramesHaveTheSeamsOfR113 : Prop :=
  (∀ bits : List Bit,
    (∀ i, i < 26 → (frame bits)[i]? = some false) ∧ (frame bits)[26]? = some true ∧ (frame bits)[27]? = some false ∧
      (frame bits)[(frame bits).length - 2]? = some false ∧ (frame bits)[(frame bits).length - 1]? = some false ∧
      (bits ≠ [] → (frame bits)[(frame bits).length - 3]? = some (decide (bits.length % 2 = 0)))) ∧
    ∀ a b : List Bit, a.length = b.length → frame a = frame b → a = b

/-- R120, R122: for legal selectors `commandBits` is the 48 bits of the Command Code, Channel Code first, each least
significant bit first. -/
def Obligations.CommandBitsAreTheCommandCode : Prop :=
  ∀ (c : Config) (gi bi : Fin 4) (on : Bool), ∃ channel action bits,
    toBits ((c.channelCode.get gi).get bi).toNat 32 = .ok channel ∧
      toBits (if on = true then 0x3333 else 0x5333) 16 = .ok action ∧
      commandBits c (gi.val + 1) (bi.val + 1) on = .ok bits ∧ bits = channel ++ action ∧ bits.length = 48 ∧
      ∀ k, k < 48 → bits[k]? = some ((commandCode c gi bi on).getLsbD k)

/-- R121: a group or button outside 1..4 is rejected. -/
def Obligations.CommandBitsRejectsABadSelection : Prop :=
  ∀ (c : Config) (group button : Int) (on : Bool), group < 1 ∨ 4 < group ∨ button < 1 ∨ 4 < button →
    commandBits c group button on = .error .invalidArgument

/-- R123: "on" and "off" of one socket differ at exactly the payload bits 45 and 46. -/
def Obligations.OnAndOffDifferInBits45And46 : Prop :=
  ∀ (c : Config) (gi bi : Fin 4), ∃ bitsOn bitsOff,
    commandBits c (gi.val + 1) (bi.val + 1) true = .ok bitsOn ∧
      commandBits c (gi.val + 1) (bi.val + 1) false = .ok bitsOff ∧
      ∀ k, k < 48 → (bitsOn[k]? ≠ bitsOff[k]? ↔ k = 45 ∨ k = 46)

/-- R68: the length of a command's frame is `93 + 2 popcount(channel code)`, between 93 and 157 and the same for "on" and
"off". -/
def Obligations.FrameLengthFromTheChannelCode : Prop :=
  ∀ (c : Config) (gi bi : Fin 4) (on : Bool) (bits : List Bit),
    commandBits c (gi.val + 1) (bi.val + 1) on = .ok bits →
    (frame bits).length = 93 + 2 * popcount ((c.channelCode.get gi).get bi) ∧
      93 ≤ (frame bits).length ∧ (frame bits).length ≤ 157

/-- R124: the 32 legal selections give 32 pairwise different frames. -/
def Obligations.ThirtyTwoCommandsHaveDistinctFrames : Prop :=
  ∀ (c : Config), c.wf → ∀ (gi bi gi' bi' : Fin 4) (on on' : Bool) (bits bits' : List Bit),
    commandBits c (gi.val + 1) (bi.val + 1) on = .ok bits →
    commandBits c (gi'.val + 1) (bi'.val + 1) on' = .ok bits' →
    frame bits = frame bits' → gi = gi' ∧ bi = bi' ∧ on = on'

/-- R130: level `i` of a schedule is written at `t0 + i P`, and nothing else is. -/
def Obligations.ScheduleTimesEachLevelOnce : Prop :=
  ∀ (levels : List Level) (t0 p : Nat),
    (schedule levels t0 p).length = levels.length ∧
      (∀ i level, levels[i]? = some level → (schedule levels t0 p)[i]? = some (t0 + i * p, level)) ∧
      scheduleEnd levels t0 p = t0 + levels.length * p

/-! ### Transmissions -/

/-- R141, R140, R178: the refinement. A frame that starts at an edge at which `NOW = t0`, whether at the accept edge of a
command or at the end of the frame before, makes exactly the pin writes of `Schedule(frame(commandBits(...)), t0, P)`
with times modulo `2^32`, gives no response on the way, and is at its end at the edge at which `NOW = End(...)`,
whatever the host does short of reset. -/
def Obligations.FrameWritesItsSchedule : Prop :=
  ∀ (s t : State) (bits : List Bit), s.Inv → step s = .next t →
    t.regs.phase = .pre → t.regs.cnt = 25 → t.regs.pinWr = true →
    commandBits s.cfg (t.regs.selG.val + 1) (t.regs.selB.val + 1) t.regs.selOn = .ok bits →
    s.noReset ((frame bits).length * s.cfg.pulseTicks) →
    ∃ o, observe ((frame bits).length * s.cfg.pulseTicks) s = some o ∧
      o.writes = wrapTimes (schedule (frame bits) s.regs.now.toNat s.cfg.pulseTicks) ∧ o.responses = [] ∧
      o.final.regs.phase = .post ∧ o.final.regs.cnt = 0 ∧ o.final.regs.now = o.final.regs.tgt ∧
      o.final.regs.now = BitVec.ofNat 32 (scheduleEnd (frame bits) s.regs.now.toNat s.cfg.pulseTicks)

/-- R158, R204, for SENDOFF and SENDON: the command sends one frame, is busy for exactly `n P` ticks, completes at the edge
at which `NOW = t0 + n P` with the one response `OK`, and leaves every register as R34 and R16 say. -/
def Obligations.SendTransmitsOneFrameAndCompletes : Prop :=
  ∀ (s : State) (on : Bool) (group button : BitVec 4) (gi bi : Fin 4) (bits : List Bit) (n : Nat),
    s.Inv → s.regs.pinOe = true → group.toNat = gi.val + 1 → button.toNat = bi.val + 1 →
    s.presents (encode (if on = true then .sendon group button else .sendoff group button)) →
    commandBits s.cfg group.toNat button.toNat on = .ok bits → n = (frame bits).length →
    s.inp.gpioOk = true → s.noReset (n * s.cfg.pulseTicks + 1) →
    (∃ o, observe (n * s.cfg.pulseTicks + 1) s = some o ∧
      o.writes = wrapTimes (schedule (frame bits) s.regs.now.toNat s.cfg.pulseTicks) ∧ o.responses = [.ok] ∧
      o.final.regs =
        { Regs.reset with
          now := s.regs.now + BitVec.ofNat 32 (n * s.cfg.pulseTicks) + 1
          tgt := s.regs.now + BitVec.ofNat 32 (n * s.cfg.pulseTicks)
          pinOe := true, selG := gi, selB := bi, selOn := on, done := true, resp := .ok }) ∧
    ∀ j o, 1 ≤ j → j ≤ n * s.cfg.pulseTicks → observe j s = some o → o.final.regs.busy = true

/-- R158, R157, R204, for SWOFF and SWON: with the pin subsystem accessible at the five frame starts the command sends five
identical frames back to back, is busy for exactly `5 n P` ticks and completes with the one response `OK`. -/
def Obligations.SwitchTransmitsFiveFramesAndCompletes : Prop :=
  ∀ (s : State) (on : Bool) (group button : BitVec 4) (gi bi : Fin 4) (bits : List Bit) (n : Nat),
    s.Inv → s.regs.pinOe = true → group.toNat = gi.val + 1 → button.toNat = bi.val + 1 →
    s.presents (encode (if on = true then .swon group button else .swoff group button)) →
    commandBits s.cfg group.toNat button.toNat on = .ok bits → n = (frame bits).length →
    (∀ j, j < 5 → (s.inputAt (j * (n * s.cfg.pulseTicks))).gpioOk = true) →
    s.noReset (5 * (n * s.cfg.pulseTicks) + 1) →
    (∃ o, observe (5 * (n * s.cfg.pulseTicks) + 1) s = some o ∧
      o.writes = wrapTimes (schedule (repeatLevels 5 (frame bits)) s.regs.now.toNat s.cfg.pulseTicks) ∧
      o.responses = [.ok] ∧
      o.final.regs =
        { Regs.reset with
          now := s.regs.now + BitVec.ofNat 32 (5 * (n * s.cfg.pulseTicks)) + 1
          tgt := s.regs.now + BitVec.ofNat 32 (5 * (n * s.cfg.pulseTicks))
          pinOe := true, selG := gi, selB := bi, selOn := on, done := true, resp := .ok }) ∧
    ∀ j o, 1 ≤ j → j ≤ 5 * (n * s.cfg.pulseTicks) → observe j s = some o → o.final.regs.busy = true

/-- R157, R172 (third row), R178: when the pin subsystem is inaccessible at the edge that ends frame `m`, 1 to 4, of a SWOFF
or SWON, exactly `m` whole frames have been sent, none is cut short, and the command completes there with the one
response `HwUnavailable`. -/
def Obligations.SwitchStopsAtAFrameBoundary : Prop :=
  ∀ (s : State) (on : Bool) (group button : BitVec 4) (gi bi : Fin 4) (bits : List Bit) (n m : Nat),
    s.Inv → s.regs.pinOe = true → group.toNat = gi.val + 1 → button.toNat = bi.val + 1 →
    s.presents (encode (if on = true then .swon group button else .swoff group button)) →
    commandBits s.cfg group.toNat button.toNat on = .ok bits → n = (frame bits).length →
    1 ≤ m → m ≤ 4 →
    (∀ j, j < m → (s.inputAt (j * (n * s.cfg.pulseTicks))).gpioOk = true) →
    (s.inputAt (m * (n * s.cfg.pulseTicks))).gpioOk = false →
    s.noReset (m * (n * s.cfg.pulseTicks) + 1) →
    ∃ o, observe (m * (n * s.cfg.pulseTicks) + 1) s = some o ∧
      o.writes = wrapTimes (schedule (repeatLevels m (frame bits)) s.regs.now.toNat s.cfg.pulseTicks) ∧
      o.responses = [.hwUnavailable] ∧
      o.final.regs =
        { Regs.reset with
          now := s.regs.now + BitVec.ofNat 32 (m * (n * s.cfg.pulseTicks)) + 1
          tgt := s.regs.now + BitVec.ofNat 32 (m * (n * s.cfg.pulseTicks))
          pinOe := true, selG := gi, selB := bi, selOn := on, done := true, resp := .hwUnavailable }

/-- R29, R150, R143: from every state with a transmission in flight, whatever the host does short of reset, exactly one
response is given within the slots that can remain: at most 173 slots of the frame in flight and 4 further frames of at
most 157 slots. -/
def Obligations.EveryTransmissionEndsWithOneResponse : Prop :=
  ∀ s : State, s.Inv → s.regs.phase ≠ .idle → s.noReset (801 * s.cfg.pulseTicks) →
    ∃ k o, k ≤ 801 * s.cfg.pulseTicks ∧ observe k s = some o ∧ o.responses = [o.final.regs.resp] ∧
      o.final.regs.phase = .idle ∧ o.final.regs.done = true
end

