-- ==== Sys2Proof/Laws/Decode.lean ====
section
/-! SUPPORT. Facts about the fields of format C and the rows of the opcode map. -/

namespace Sys2Proof

/-! ### Format C: fields and words -/

@[simp] theorem opField_formatC (op rsv g b : BitVec 4) : opField (formatC op rsv g b) = op := by
  unfold opField formatC
  rw [BitVec.extractLsb'_append_eq_of_le (by decide), BitVec.extractLsb'_append_eq_of_le (by decide)]
  exact BitVec.extractLsb'_append_eq_left

@[simp] theorem rsvField_formatC (op rsv g b : BitVec 4) : rsvField (formatC op rsv g b) = rsv := by
  unfold rsvField formatC
  rw [BitVec.extractLsb'_append_eq_of_le (by decide), BitVec.extractLsb'_append_eq_of_le (by decide)]
  exact BitVec.extractLsb'_append_eq_right

@[simp] theorem groupField_formatC (op rsv g b : BitVec 4) : groupField (formatC op rsv g b) = g := by
  unfold groupField formatC
  rw [BitVec.extractLsb'_append_eq_of_le (by decide)]
  exact BitVec.extractLsb'_append_eq_right

@[simp] theorem buttonField_formatC (op rsv g b : BitVec 4) : buttonField (formatC op rsv g b) = b :=
  BitVec.extractLsb'_append_eq_right

/-- A word is put together again from its four fields. -/
theorem formatC_fields (c : CmdWord) : formatC (opField c) (rsvField c) (groupField c) (buttonField c) = c := by
  apply BitVec.eq_of_getLsbD_eq
  intro i hi
  simp only [formatC, opField, rsvField, groupField, buttonField, BitVec.getLsbD_append, BitVec.getLsbD_extractLsb']
  grind

/-- Two words of format C are equal exactly when their fields are. -/
theorem formatC_inj {op rsv g b op' rsv' g' b' : BitVec 4} :
    formatC op rsv g b = formatC op' rsv' g' b' ↔ op = op' ∧ rsv = rsv' ∧ g = g' ∧ b = b' := by
  constructor
  · intro h
    exact ⟨by simpa using congrArg opField h, by simpa using congrArg rsvField h,
      by simpa using congrArg groupField h, by simpa using congrArg buttonField h⟩
  · rintro ⟨rfl, rfl, rfl, rfl⟩; rfl

/-- What the mask of the SEND and SWITCH rows keeps of a word: `OP` and `RSV`. -/
theorem formatC_and_mask (op rsv g b : BitVec 4) : formatC op rsv g b &&& 0xFF00#16 = formatC op rsv 0#4 0#4 := by
  have hm : (0xFF00#16 : CmdWord) = formatC 15#4 15#4 0#4 0#4 := by decide
  have h15 : ∀ x : BitVec 4, x &&& 15#4 = x := by decide
  rw [hm]
  unfold formatC
  rw [BitVec.and_append, BitVec.and_append, BitVec.and_append, h15, h15, BitVec.and_zero, BitVec.and_zero]

/-- A word is of a SEND or SWITCH row exactly when its `OP` is the row's and its `RSV` is 0 (R62). -/
theorem and_mask_eq_iff (c : CmdWord) (op : BitVec 4) :
    c &&& 0xFF00#16 = formatC op 0#4 0#4 0#4 ↔ opField c = op ∧ rsvField c = 0#4 := by
  conv_lhs => rw [← formatC_fields c, formatC_and_mask]
  simp [formatC_inj]

/-! ### The opcode map -/

/-- No word is of two rows: any two rows differ in a bit that both masks keep (R62, "The five rows are disjoint"). -/
theorem opcodeRows_disjoint :
    opcodeRows.Pairwise fun r r' => (r.pattern ^^^ r'.pattern) &&& (r.mask &&& r'.mask) ≠ 0#16 := by
  simp [opcodeRows]

/-- `decode`, by the fields of the word. -/
theorem decode_eq (c : CmdWord) :
    decode c =
      if c = 0x1000#16 then .ok .init
      else if opField c = 2#4 ∧ rsvField c = 0#4 then .ok (.sendoff (groupField c) (buttonField c))
      else if opField c = 3#4 ∧ rsvField c = 0#4 then .ok (.sendon (groupField c) (buttonField c))
      else if opField c = 4#4 ∧ rsvField c = 0#4 then .ok (.swoff (groupField c) (buttonField c))
      else if opField c = 5#4 ∧ rsvField c = 0#4 then .ok (.swon (groupField c) (buttonField c))
      else .error (decodeError c) := by
  have h1 : c &&& 0xFFFF#16 = c := by
    have : (0xFFFF#16 : CmdWord) = BitVec.allOnes 16 := by decide
    rw [this, BitVec.and_allOnes]
  have h2 : ∀ op : BitVec 4, ∀ p : CmdWord, p = formatC op 0#4 0#4 0#4 →
      ((c &&& 0xFF00#16) == p) = decide (opField c = op ∧ rsvField c = 0#4) := by
    intro op p hp
    rw [hp, Bool.eq_iff_iff, beq_iff_eq, decide_eq_true_iff]
    exact and_mask_eq_iff c op
  unfold decode opcodeRows
  simp only [List.find?_cons, List.find?_nil, h1, h2 2#4 0x2000#16 (by decide), h2 3#4 0x3000#16 (by decide),
    h2 4#4 0x4000#16 (by decide), h2 5#4 0x5000#16 (by decide)]
  by_cases h0 : c = 0x1000#16
  · simp [h0]
  · have : (c == 0x1000#16) = false := by simpa using h0
    clear h1 h2
    simp only [this, h0, if_false]
    by_cases p2 : opField c = 2#4 ∧ rsvField c = 0#4
    · rw [if_pos p2]; simp only [decide_eq_true p2]
    rw [if_neg p2]; simp only [decide_eq_false p2]
    by_cases p3 : opField c = 3#4 ∧ rsvField c = 0#4
    · rw [if_pos p3]; simp only [decide_eq_true p3]
    rw [if_neg p3]; simp only [decide_eq_false p3]
    by_cases p4 : opField c = 4#4 ∧ rsvField c = 0#4
    · rw [if_pos p4]; simp only [decide_eq_true p4]
    rw [if_neg p4]; simp only [decide_eq_false p4]
    by_cases p5 : opField c = 5#4 ∧ rsvField c = 0#4
    · rw [if_pos p5]; simp only [decide_eq_true p5]
    rw [if_neg p5]; simp only [decide_eq_false p5]

/-- Whether a selector is legal, as R63 says it. -/
theorem selectorLegal_iff (v : BitVec 4) : selectorLegal v = true ↔ 1 ≤ v.toNat ∧ v.toNat ≤ 4 := by
  simp [selectorLegal]

/-! ### `Decode` of R64 -/

/-- The three high bits of a word are those of its `OP`. -/
theorem opField_high (c : CmdWord) : c.extractLsb' 13 3 = (opField c).extractLsb' 1 3 := by
  apply BitVec.eq_of_getLsbD_eq
  intro i hi
  simp [opField, BitVec.getLsbD_extractLsb']
  grind

/-- Bit 12 of a word, the on/off selector (R61), is the low bit of its `OP`. -/
theorem opField_on (c : CmdWord) : c.getLsbD 12 = (opField c).getLsbD 0 := by simp [opField]

/-- `decodeCmd`, by the fields of the word. -/
theorem decodeCmd_eq (c : CmdWord) :
    decodeCmd c =
      if c = 0x1000#16 then .init
      else if rsvField c = 0#4 ∧ selectorLegal (groupField c) = true ∧ selectorLegal (buttonField c) = true then
        if opField c = 2#4 then .send false (groupField c) (buttonField c)
        else if opField c = 3#4 then .send true (groupField c) (buttonField c)
        else if opField c = 4#4 then .switch false (groupField c) (buttonField c)
        else if opField c = 5#4 then .switch true (groupField c) (buttonField c)
        else .illegal
      else .illegal := by
  have h : decodeCmd c =
      if c = 0x1000#16 then .init
      else if (opField c).extractLsb' 1 3 = 0b001#3 ∧ rsvField c = 0#4 ∧
          selectorLegal (groupField c) = true ∧ selectorLegal (buttonField c) = true then
        .send ((opField c).getLsbD 0) (groupField c) (buttonField c)
      else if (opField c).extractLsb' 1 3 = 0b010#3 ∧ rsvField c = 0#4 ∧
          selectorLegal (groupField c) = true ∧ selectorLegal (buttonField c) = true then
        .switch ((opField c).getLsbD 0) (groupField c) (buttonField c)
      else .illegal := by
    simp only [selectorLegal_iff, decodeCmd, opField_high, opField_on]
    rfl
  rw [h]
  have h1 : ∀ op : BitVec 4, op.extractLsb' 1 3 = 0b001#3 ↔ op = 2#4 ∨ op = 3#4 := by decide
  have h2 : ∀ op : BitVec 4, op.extractLsb' 1 3 = 0b010#3 ↔ op = 4#4 ∨ op = 5#4 := by decide
  simp only [h1, h2]
  generalize opField c = op
  by_cases hl : rsvField c = 0#4 ∧ selectorLegal (groupField c) = true ∧ selectorLegal (buttonField c) = true
  · simp only [hl, and_true, if_true]
    split_ifs <;> simp_all
  · simp only [hl, and_false, if_false]

end Sys2Proof
end

