-- ==== Sys2Proof/Laws/State.lean ====
section
/-! SUPPORT. One lemma per field per update of the registers and of the state, so that no proof unfolds a record update. -/

namespace Sys2Proof.Machine

open Sys2Proof

/-! ### `edge` -/

@[simp] theorem edge_now (r : Regs) : (edge r).now = r.now + 1 := rfl
@[simp] theorem edge_tgt (r : Regs) : (edge r).tgt = r.tgt := rfl
@[simp] theorem edge_pinOe (r : Regs) : (edge r).pinOe = r.pinOe := rfl
@[simp] theorem edge_pinLvl (r : Regs) : (edge r).pinLvl = r.pinLvl := rfl
@[simp] theorem edge_pinWr (r : Regs) : (edge r).pinWr = false := rfl
@[simp] theorem edge_phase (r : Regs) : (edge r).phase = r.phase := rfl
@[simp] theorem edge_cnt (r : Regs) : (edge r).cnt = r.cnt := rfl
@[simp] theorem edge_shreg (r : Regs) : (edge r).shreg = r.shreg := rfl
@[simp] theorem edge_bitcnt (r : Regs) : (edge r).bitcnt = r.bitcnt := rfl
@[simp] theorem edge_tog (r : Regs) : (edge r).tog = r.tog := rfl
@[simp] theorem edge_run (r : Regs) : (edge r).run = r.run := rfl
@[simp] theorem edge_rep (r : Regs) : (edge r).rep = r.rep := rfl
@[simp] theorem edge_selG (r : Regs) : (edge r).selG = r.selG := rfl
@[simp] theorem edge_selB (r : Regs) : (edge r).selB = r.selB := rfl
@[simp] theorem edge_selOn (r : Regs) : (edge r).selOn = r.selOn := rfl
@[simp] theorem edge_done (r : Regs) : (edge r).done = false := rfl
@[simp] theorem edge_resp (r : Regs) : (edge r).resp = r.resp := rfl

/-! ### `pinWrite` -/

@[simp] theorem pinWrite_now (level : Level) (n : Regs) : (pinWrite level n).now = n.now := rfl
@[simp] theorem pinWrite_tgt (level : Level) (n : Regs) : (pinWrite level n).tgt = n.tgt := rfl
@[simp] theorem pinWrite_pinOe (level : Level) (n : Regs) : (pinWrite level n).pinOe = n.pinOe := rfl
@[simp] theorem pinWrite_pinLvl (level : Level) (n : Regs) : (pinWrite level n).pinLvl = level := rfl
@[simp] theorem pinWrite_pinWr (level : Level) (n : Regs) : (pinWrite level n).pinWr = true := rfl
@[simp] theorem pinWrite_phase (level : Level) (n : Regs) : (pinWrite level n).phase = n.phase := rfl
@[simp] theorem pinWrite_cnt (level : Level) (n : Regs) : (pinWrite level n).cnt = n.cnt := rfl
@[simp] theorem pinWrite_shreg (level : Level) (n : Regs) : (pinWrite level n).shreg = n.shreg := rfl
@[simp] theorem pinWrite_bitcnt (level : Level) (n : Regs) : (pinWrite level n).bitcnt = n.bitcnt := rfl
@[simp] theorem pinWrite_tog (level : Level) (n : Regs) : (pinWrite level n).tog = n.tog := rfl
@[simp] theorem pinWrite_run (level : Level) (n : Regs) : (pinWrite level n).run = n.run := rfl
@[simp] theorem pinWrite_rep (level : Level) (n : Regs) : (pinWrite level n).rep = n.rep := rfl
@[simp] theorem pinWrite_selG (level : Level) (n : Regs) : (pinWrite level n).selG = n.selG := rfl
@[simp] theorem pinWrite_selB (level : Level) (n : Regs) : (pinWrite level n).selB = n.selB := rfl
@[simp] theorem pinWrite_selOn (level : Level) (n : Regs) : (pinWrite level n).selOn = n.selOn := rfl
@[simp] theorem pinWrite_done (level : Level) (n : Regs) : (pinWrite level n).done = n.done := rfl
@[simp] theorem pinWrite_resp (level : Level) (n : Regs) : (pinWrite level n).resp = n.resp := rfl

/-! ### `respond` -/

@[simp] theorem respond_now (code : Resp) (n : Regs) : (respond code n).now = n.now := rfl
@[simp] theorem respond_tgt (code : Resp) (n : Regs) : (respond code n).tgt = n.tgt := rfl
@[simp] theorem respond_pinOe (code : Resp) (n : Regs) : (respond code n).pinOe = n.pinOe := rfl
@[simp] theorem respond_pinLvl (code : Resp) (n : Regs) : (respond code n).pinLvl = n.pinLvl := rfl
@[simp] theorem respond_pinWr (code : Resp) (n : Regs) : (respond code n).pinWr = n.pinWr := rfl
@[simp] theorem respond_phase (code : Resp) (n : Regs) : (respond code n).phase = n.phase := rfl
@[simp] theorem respond_cnt (code : Resp) (n : Regs) : (respond code n).cnt = n.cnt := rfl
@[simp] theorem respond_shreg (code : Resp) (n : Regs) : (respond code n).shreg = n.shreg := rfl
@[simp] theorem respond_bitcnt (code : Resp) (n : Regs) : (respond code n).bitcnt = n.bitcnt := rfl
@[simp] theorem respond_tog (code : Resp) (n : Regs) : (respond code n).tog = n.tog := rfl
@[simp] theorem respond_run (code : Resp) (n : Regs) : (respond code n).run = n.run := rfl
@[simp] theorem respond_rep (code : Resp) (n : Regs) : (respond code n).rep = n.rep := rfl
@[simp] theorem respond_selG (code : Resp) (n : Regs) : (respond code n).selG = n.selG := rfl
@[simp] theorem respond_selB (code : Resp) (n : Regs) : (respond code n).selB = n.selB := rfl
@[simp] theorem respond_selOn (code : Resp) (n : Regs) : (respond code n).selOn = n.selOn := rfl
@[simp] theorem respond_done (code : Resp) (n : Regs) : (respond code n).done = true := rfl
@[simp] theorem respond_resp (code : Resp) (n : Regs) : (respond code n).resp = code := rfl

/-! ### `raise` -/

@[simp] theorem raise_now (code : Resp) (r : Regs) : (raise code r).now = r.now + 1 := rfl
@[simp] theorem raise_tgt (code : Resp) (r : Regs) : (raise code r).tgt = r.tgt := rfl
@[simp] theorem raise_pinOe (code : Resp) (r : Regs) : (raise code r).pinOe = r.pinOe := rfl
@[simp] theorem raise_pinLvl (code : Resp) (r : Regs) : (raise code r).pinLvl = r.pinLvl := rfl
@[simp] theorem raise_pinWr (code : Resp) (r : Regs) : (raise code r).pinWr = false := rfl
@[simp] theorem raise_phase (code : Resp) (r : Regs) : (raise code r).phase = r.phase := rfl
@[simp] theorem raise_cnt (code : Resp) (r : Regs) : (raise code r).cnt = r.cnt := rfl
@[simp] theorem raise_shreg (code : Resp) (r : Regs) : (raise code r).shreg = r.shreg := rfl
@[simp] theorem raise_bitcnt (code : Resp) (r : Regs) : (raise code r).bitcnt = r.bitcnt := rfl
@[simp] theorem raise_tog (code : Resp) (r : Regs) : (raise code r).tog = r.tog := rfl
@[simp] theorem raise_run (code : Resp) (r : Regs) : (raise code r).run = r.run := rfl
@[simp] theorem raise_rep (code : Resp) (r : Regs) : (raise code r).rep = r.rep := rfl
@[simp] theorem raise_selG (code : Resp) (r : Regs) : (raise code r).selG = r.selG := rfl
@[simp] theorem raise_selB (code : Resp) (r : Regs) : (raise code r).selB = r.selB := rfl
@[simp] theorem raise_selOn (code : Resp) (r : Regs) : (raise code r).selOn = r.selOn := rfl
@[simp] theorem raise_done (code : Resp) (r : Regs) : (raise code r).done = true := rfl
@[simp] theorem raise_resp (code : Resp) (r : Regs) : (raise code r).resp = code := rfl

/-! ### `startFrame` -/

@[simp] theorem startFrame_now (c : Config) (t : Word) (gi bi : Fin 4) (on : Bool) (n : Regs) : (startFrame c t gi bi on n).now = n.now := rfl
@[simp] theorem startFrame_tgt (c : Config) (t : Word) (gi bi : Fin 4) (on : Bool) (n : Regs) : (startFrame c t gi bi on n).tgt = t + pulse c := rfl
@[simp] theorem startFrame_pinOe (c : Config) (t : Word) (gi bi : Fin 4) (on : Bool) (n : Regs) : (startFrame c t gi bi on n).pinOe = n.pinOe := rfl
@[simp] theorem startFrame_pinLvl (c : Config) (t : Word) (gi bi : Fin 4) (on : Bool) (n : Regs) : (startFrame c t gi bi on n).pinLvl = false := rfl
@[simp] theorem startFrame_pinWr (c : Config) (t : Word) (gi bi : Fin 4) (on : Bool) (n : Regs) : (startFrame c t gi bi on n).pinWr = true := rfl
@[simp] theorem startFrame_phase (c : Config) (t : Word) (gi bi : Fin 4) (on : Bool) (n : Regs) : (startFrame c t gi bi on n).phase = .pre := rfl
@[simp] theorem startFrame_cnt (c : Config) (t : Word) (gi bi : Fin 4) (on : Bool) (n : Regs) : (startFrame c t gi bi on n).cnt = 25 := rfl
@[simp] theorem startFrame_shreg (c : Config) (t : Word) (gi bi : Fin 4) (on : Bool) (n : Regs) : (startFrame c t gi bi on n).shreg = commandCode c gi bi on := rfl
@[simp] theorem startFrame_bitcnt (c : Config) (t : Word) (gi bi : Fin 4) (on : Bool) (n : Regs) : (startFrame c t gi bi on n).bitcnt = 48 := rfl
@[simp] theorem startFrame_tog (c : Config) (t : Word) (gi bi : Fin 4) (on : Bool) (n : Regs) : (startFrame c t gi bi on n).tog = false := rfl
@[simp] theorem startFrame_run (c : Config) (t : Word) (gi bi : Fin 4) (on : Bool) (n : Regs) : (startFrame c t gi bi on n).run = 0 := rfl
@[simp] theorem startFrame_rep (c : Config) (t : Word) (gi bi : Fin 4) (on : Bool) (n : Regs) : (startFrame c t gi bi on n).rep = n.rep := rfl
@[simp] theorem startFrame_selG (c : Config) (t : Word) (gi bi : Fin 4) (on : Bool) (n : Regs) : (startFrame c t gi bi on n).selG = n.selG := rfl
@[simp] theorem startFrame_selB (c : Config) (t : Word) (gi bi : Fin 4) (on : Bool) (n : Regs) : (startFrame c t gi bi on n).selB = n.selB := rfl
@[simp] theorem startFrame_selOn (c : Config) (t : Word) (gi bi : Fin 4) (on : Bool) (n : Regs) : (startFrame c t gi bi on n).selOn = n.selOn := rfl
@[simp] theorem startFrame_done (c : Config) (t : Word) (gi bi : Fin 4) (on : Bool) (n : Regs) : (startFrame c t gi bi on n).done = n.done := rfl
@[simp] theorem startFrame_resp (c : Config) (t : Word) (gi bi : Fin 4) (on : Bool) (n : Regs) : (startFrame c t gi bi on n).resp = n.resp := rfl

/-! ### `nextSlot` -/

@[simp] theorem nextSlot_now (c : Config) (r : Regs) : (nextSlot c r).now = r.now + 1 := rfl
@[simp] theorem nextSlot_tgt (c : Config) (r : Regs) : (nextSlot c r).tgt = r.tgt + pulse c := rfl
@[simp] theorem nextSlot_pinOe (c : Config) (r : Regs) : (nextSlot c r).pinOe = r.pinOe := rfl
@[simp] theorem nextSlot_pinLvl (c : Config) (r : Regs) : (nextSlot c r).pinLvl = r.pinLvl := rfl
@[simp] theorem nextSlot_pinWr (c : Config) (r : Regs) : (nextSlot c r).pinWr = false := rfl
@[simp] theorem nextSlot_phase (c : Config) (r : Regs) : (nextSlot c r).phase = r.phase := rfl
@[simp] theorem nextSlot_cnt (c : Config) (r : Regs) : (nextSlot c r).cnt = r.cnt := rfl
@[simp] theorem nextSlot_shreg (c : Config) (r : Regs) : (nextSlot c r).shreg = r.shreg := rfl
@[simp] theorem nextSlot_bitcnt (c : Config) (r : Regs) : (nextSlot c r).bitcnt = r.bitcnt := rfl
@[simp] theorem nextSlot_tog (c : Config) (r : Regs) : (nextSlot c r).tog = r.tog := rfl
@[simp] theorem nextSlot_run (c : Config) (r : Regs) : (nextSlot c r).run = r.run := rfl
@[simp] theorem nextSlot_rep (c : Config) (r : Regs) : (nextSlot c r).rep = r.rep := rfl
@[simp] theorem nextSlot_selG (c : Config) (r : Regs) : (nextSlot c r).selG = r.selG := rfl
@[simp] theorem nextSlot_selB (c : Config) (r : Regs) : (nextSlot c r).selB = r.selB := rfl
@[simp] theorem nextSlot_selOn (c : Config) (r : Regs) : (nextSlot c r).selOn = r.selOn := rfl
@[simp] theorem nextSlot_done (c : Config) (r : Regs) : (nextSlot c r).done = false := rfl
@[simp] theorem nextSlot_resp (c : Config) (r : Regs) : (nextSlot c r).resp = r.resp := rfl

/-! ### `finishBit` -/

@[simp] theorem finishBit_now (c : Config) (r : Regs) : (finishBit c r).now = r.now + 1 := rfl
@[simp] theorem finishBit_tgt (c : Config) (r : Regs) : (finishBit c r).tgt = r.tgt + pulse c := rfl
@[simp] theorem finishBit_pinOe (c : Config) (r : Regs) : (finishBit c r).pinOe = r.pinOe := rfl
@[simp] theorem finishBit_pinLvl (c : Config) (r : Regs) : (finishBit c r).pinLvl = r.pinLvl := rfl
@[simp] theorem finishBit_pinWr (c : Config) (r : Regs) : (finishBit c r).pinWr = false := rfl
@[simp] theorem finishBit_phase (c : Config) (r : Regs) : (finishBit c r).phase = r.phase := rfl
@[simp] theorem finishBit_cnt (c : Config) (r : Regs) : (finishBit c r).cnt = r.cnt := rfl
@[simp] theorem finishBit_shreg (c : Config) (r : Regs) : (finishBit c r).shreg = r.shreg >>> 1 := rfl
@[simp] theorem finishBit_bitcnt (c : Config) (r : Regs) : (finishBit c r).bitcnt = bitcntDown r.now r.bitcnt := rfl
@[simp] theorem finishBit_tog (c : Config) (r : Regs) : (finishBit c r).tog = !r.tog := rfl
@[simp] theorem finishBit_run (c : Config) (r : Regs) : (finishBit c r).run = r.run := rfl
@[simp] theorem finishBit_rep (c : Config) (r : Regs) : (finishBit c r).rep = r.rep := rfl
@[simp] theorem finishBit_selG (c : Config) (r : Regs) : (finishBit c r).selG = r.selG := rfl
@[simp] theorem finishBit_selB (c : Config) (r : Regs) : (finishBit c r).selB = r.selB := rfl
@[simp] theorem finishBit_selOn (c : Config) (r : Regs) : (finishBit c r).selOn = r.selOn := rfl
@[simp] theorem finishBit_done (c : Config) (r : Regs) : (finishBit c r).done = false := rfl
@[simp] theorem finishBit_resp (c : Config) (r : Regs) : (finishBit c r).resp = r.resp := rfl

/-! ### `State.after`, `State.hostNext`, `State.withFetchWord` -/

@[simp] theorem after_cfg (s : State) (n : Regs) : (s.after n).cfg = s.cfg := rfl
@[simp] theorem after_regs (s : State) (n : Regs) : (s.after n).regs = n := rfl
@[simp] theorem after_inp (s : State) (n : Regs) : (s.after n).inp = s.nextInputs := rfl
@[simp] theorem after_later (s : State) (n : Regs) : (s.after n).later = s.later.tail := rfl
@[simp] theorem hostNext_cfg (s : State) : s.hostNext.cfg = s.cfg := rfl
@[simp] theorem hostNext_regs (s : State) : s.hostNext.regs = s.regs := rfl
@[simp] theorem hostNext_inp (s : State) : s.hostNext.inp = s.nextInputs := rfl
@[simp] theorem hostNext_later (s : State) : s.hostNext.later = s.later.tail := rfl
@[simp] theorem after_hostNext (s : State) (n : Regs) : (s.after n).hostNext = s.hostNext.after n := rfl
@[simp] theorem after_nextInputs (s : State) (n : Regs) : (s.after n).nextInputs = s.hostNext.nextInputs := rfl
@[simp] theorem withFetchWord_cfg (s : State) (nbits w : Nat) :
    (s.withFetchWord nbits w).cfg = s.cfg := rfl
@[simp] theorem withFetchWord_inp (s : State) (nbits w : Nat) :
    (s.withFetchWord nbits w).inp = ⟨false, true, tableWord nbits w, s.inp.gpioOk⟩ := rfl
@[simp] theorem withFetchWord_later (s : State) (nbits w : Nat) :
    (s.withFetchWord nbits w).later = s.inp :: s.later := rfl
@[simp] theorem withFetchWord_now (s : State) (nbits w : Nat) :
    (s.withFetchWord nbits w).regs.now = s.regs.now := rfl
@[simp] theorem withFetchWord_tgt (s : State) (nbits w : Nat) :
    (s.withFetchWord nbits w).regs.tgt = s.regs.tgt := rfl
@[simp] theorem withFetchWord_pinOe (s : State) (nbits w : Nat) :
    (s.withFetchWord nbits w).regs.pinOe = s.regs.pinOe := rfl
@[simp] theorem withFetchWord_pinLvl (s : State) (nbits w : Nat) :
    (s.withFetchWord nbits w).regs.pinLvl = s.regs.pinLvl := rfl
@[simp] theorem withFetchWord_pinWr (s : State) (nbits w : Nat) :
    (s.withFetchWord nbits w).regs.pinWr = s.regs.pinWr := rfl
@[simp] theorem withFetchWord_phase (s : State) (nbits w : Nat) :
    (s.withFetchWord nbits w).regs.phase = .idle := rfl
@[simp] theorem withFetchWord_cnt (s : State) (nbits w : Nat) :
    (s.withFetchWord nbits w).regs.cnt = s.regs.cnt := rfl
@[simp] theorem withFetchWord_shreg (s : State) (nbits w : Nat) :
    (s.withFetchWord nbits w).regs.shreg = s.regs.shreg := rfl
@[simp] theorem withFetchWord_bitcnt (s : State) (nbits w : Nat) :
    (s.withFetchWord nbits w).regs.bitcnt = s.regs.bitcnt := rfl
@[simp] theorem withFetchWord_tog (s : State) (nbits w : Nat) :
    (s.withFetchWord nbits w).regs.tog = s.regs.tog := rfl
@[simp] theorem withFetchWord_run (s : State) (nbits w : Nat) :
    (s.withFetchWord nbits w).regs.run = s.regs.run := rfl
@[simp] theorem withFetchWord_rep (s : State) (nbits w : Nat) :
    (s.withFetchWord nbits w).regs.rep = s.regs.rep := rfl
@[simp] theorem withFetchWord_selG (s : State) (nbits w : Nat) :
    (s.withFetchWord nbits w).regs.selG = s.regs.selG := rfl
@[simp] theorem withFetchWord_selB (s : State) (nbits w : Nat) :
    (s.withFetchWord nbits w).regs.selB = s.regs.selB := rfl
@[simp] theorem withFetchWord_selOn (s : State) (nbits w : Nat) :
    (s.withFetchWord nbits w).regs.selOn = s.regs.selOn := rfl
@[simp] theorem withFetchWord_done (s : State) (nbits w : Nat) :
    (s.withFetchWord nbits w).regs.done = s.regs.done := rfl
@[simp] theorem withFetchWord_resp (s : State) (nbits w : Nat) :
    (s.withFetchWord nbits w).regs.resp = s.regs.resp := rfl

end Sys2Proof.Machine
end

