-- ==== Sys2Proof/Laws/Ops.lean ====
section
/-! SUPPORT. One lemma per shared operation that says everything it can do; later proofs cite it instead of unfolding
the operation. -/

namespace Sys2Proof.Machine

open Sys2Proof

/-! ### Operands -/

theorem selector_eq_some {field : BitVec 4} {i : Fin 4} : selector field = some i ↔ field.toNat = i.val + 1 := by
  unfold selector
  split
  · rw [Option.some.injEq, Fin.ext_iff]
    show field.toNat - 1 = i.val ↔ _
    omega
  · have := i.isLt
    simp only [reduceCtorEq, false_iff]
    omega

theorem selector_eq_none {field : BitVec 4} : selector field = none ↔ selectorLegal field = false := by
  unfold selector selectorLegal
  split <;> simp_all

theorem selector_isSome {field : BitVec 4} : (∃ i, selector field = some i) ↔ selectorLegal field = true := by
  rw [← Option.isSome_iff_exists, Option.isSome_iff_ne_none, Ne, selector_eq_none, Bool.not_eq_false]

@[simp] theorem down_val {n : Nat} (x : Fin (n + 1)) : (down x).val = x.val - 1 := rfl

theorem bitcntDown_eq_down {now : Word} {x : Fin 49} (h : x ≠ 0) : bitcntDown now x = down x := if_neg h

/-- The Command Code bit by bit: Channel Code first, then Action Code (20_memory.md R43). -/
theorem commandCode_getLsbD (c : Config) (gi bi : Fin 4) (on : Bool) (k : Nat) :
    (commandCode c gi bi on).getLsbD k =
      if k < 32 then (romCh c gi bi).getLsbD k else (romAct on).getLsbD (k - 32) := by
  rw [commandCode, BitVec.getLsbD_append]

/-! ### Time -/

/-- While the target is ahead by less than `2^31` ticks, it is reached exactly when `NOW` is the target (R132). -/
theorem due_iff_of_lt {now tgt : Word} (h : (tgt - now).toNat < 2 ^ 31) : due now tgt = true ↔ now = tgt := by
  unfold due
  rw [decide_eq_true_iff]
  constructor
  · intro hd
    apply BitVec.eq_of_toNat_eq
    have := now.isLt; have := tgt.isLt
    rw [BitVec.toNat_sub] at h hd
    omega
  · rintro rfl
    simp

/-! ### Operations with cases -/

/-- Everything INIT can do (45_commands.md R151). -/
theorem initEdge_cases (gpioOk : Bool) (r : Regs) :
    (gpioOk = true ∧ initEdge gpioOk r = respond .ok { edge r with pinOe := true }) ∨
      (gpioOk = false ∧ initEdge gpioOk r = raise .hwUnavailable r) := by
  cases gpioOk
  · exact .inr ⟨rfl, rfl⟩
  · exact .inl ⟨rfl, rfl⟩

/-- Everything `SendStart` can do (45_commands.md R156). -/
theorem sendStart_cases (c : Config) (gpioOk on : Bool) (group button : BitVec 4) (reps : Fin 5) (r : Regs) :
    ((selectorLegal group && selectorLegal button) = false ∧
        sendStart c gpioOk on group button reps r = raise .invalidArgument r) ∨
      ((selectorLegal group && selectorLegal button) = true ∧ (r.pinOe && gpioOk) = false ∧
        sendStart c gpioOk on group button reps r = raise .hwUnavailable r) ∨
      (∃ gi bi : Fin 4, group.toNat = gi.val + 1 ∧ button.toNat = bi.val + 1 ∧ r.pinOe = true ∧ gpioOk = true ∧
        sendStart c gpioOk on group button reps r =
          startFrame c r.now gi bi on { edge r with selG := gi, selB := bi, selOn := on, rep := reps }) := by
  unfold sendStart
  cases hg : selector group with
  | none => left; simp [selector_eq_none.1 hg]
  | some gi =>
    cases hb : selector button with
    | none => left; simp [selector_eq_none.1 hb]
    | some bi =>
      have lg := selector_isSome.1 ⟨gi, hg⟩
      have lb := selector_isSome.1 ⟨bi, hb⟩
      right
      by_cases h : (r.pinOe && gpioOk) = true
      · right
        have h2 := h
        rw [Bool.and_eq_true] at h2
        exact ⟨gi, bi, selector_eq_some.1 hg, selector_eq_some.1 hb, h2.1, h2.2, if_pos h⟩
      · left
        exact ⟨by rw [lg, lb]; rfl, by simpa using h, if_neg h⟩

/-- Everything an advance in PRE can do (44_pulse_transmitter.md R136). -/
theorem advancePre_cases (c : Config) (r : Regs) :
    (r.cnt ≠ 0 ∧ advancePre c r = pinWrite false { nextSlot c r with cnt := down r.cnt }) ∨
      (r.cnt = 0 ∧ advancePre c r = pinWrite true { nextSlot c r with phase := .sync }) := by
  unfold advancePre
  by_cases h : r.cnt = 0
  · exact .inr ⟨h, by rw [if_neg (by simpa using h)]⟩
  · exact .inl ⟨h, if_pos h⟩

/-- Everything an advance in PAY can do (44_pulse_transmitter.md R138). -/
theorem advancePay_cases (c : Config) (r : Regs) :
    (r.run ≠ 0 ∧ advancePay c r = pinWrite r.tog { nextSlot c r with run := down r.run }) ∨
      (r.run = 0 ∧ r.bitcnt ≠ 1 ∧
        advancePay c r = pinWrite (!r.tog) { finishBit c r with run := runLoad (r.shreg.getLsbD 1) }) ∨
      (r.run = 0 ∧ r.bitcnt = 1 ∧
        advancePay c r = pinWrite false { finishBit c r with phase := .post, cnt := 1 }) := by
  unfold advancePay
  by_cases h : r.run = 0
  · right
    rw [if_neg (by simpa using h)]
    by_cases hb : r.bitcnt = 1
    · exact .inr ⟨h, hb, by rw [if_neg (by simpa using hb)]; rfl⟩
    · exact .inl ⟨h, hb, if_pos hb⟩
  · exact .inl ⟨h, if_pos h⟩

/-- Everything the end of a frame can do (45_commands.md R157). -/
theorem endFrame_cases (c : Config) (gpioOk : Bool) (r : Regs) :
    (r.rep = 0 ∧ endFrame c gpioOk r = respond .ok { edge r with phase := .idle }) ∨
      (r.rep ≠ 0 ∧ gpioOk = true ∧
        endFrame c gpioOk r = startFrame c r.now r.selG r.selB r.selOn { edge r with rep := down r.rep }) ∨
      (r.rep ≠ 0 ∧ gpioOk = false ∧
        endFrame c gpioOk r = respond .hwUnavailable { edge r with phase := .idle, rep := 0 }) := by
  unfold endFrame
  by_cases h : r.rep = 0
  · exact .inl ⟨h, if_pos h⟩
  · right
    rw [if_neg h]
    cases gpioOk
    · exact .inr ⟨h, rfl, rfl⟩
    · exact .inl ⟨h, rfl, rfl⟩

/-- Everything an advance in POST can do (44_pulse_transmitter.md R139). -/
theorem advancePost_cases (c : Config) (gpioOk : Bool) (r : Regs) :
    (r.cnt ≠ 0 ∧ advancePost c gpioOk r = pinWrite false { nextSlot c r with cnt := down r.cnt }) ∨
      (r.cnt = 0 ∧ advancePost c gpioOk r = endFrame c gpioOk r) := by
  unfold advancePost
  by_cases h : r.cnt = 0
  · exact .inr ⟨h, by rw [if_neg (by simpa using h)]⟩
  · exact .inl ⟨h, if_pos h⟩

/-- Everything an edge that accepts no command can do when `rst = 0` (44_pulse_transmitter.md R142). -/
theorem runEdge_cases (c : Config) (gpioOk : Bool) (r : Regs) :
    ((r.phase = .idle ∨ due r.now r.tgt = false) ∧ runEdge c gpioOk r = edge r) ∨
      (r.phase = .pre ∧ due r.now r.tgt = true ∧ runEdge c gpioOk r = advancePre c r) ∨
      (r.phase = .sync ∧ due r.now r.tgt = true ∧ runEdge c gpioOk r = advanceSync c r) ∨
      (r.phase = .pay ∧ due r.now r.tgt = true ∧ runEdge c gpioOk r = advancePay c r) ∨
      (r.phase = .post ∧ due r.now r.tgt = true ∧ runEdge c gpioOk r = advancePost c gpioOk r) := by
  unfold runEdge
  cases r.phase <;> cases due r.now r.tgt <;> simp

/-- A busy block waits while its target is not reached (44_pulse_transmitter.md R134). -/
theorem runEdge_of_not_due {c : Config} {gpioOk : Bool} {r : Regs} (h : due r.now r.tgt = false) :
    runEdge c gpioOk r = edge r := by
  rcases runEdge_cases c gpioOk r with ⟨-, he⟩ | ⟨-, hd, -⟩ | ⟨-, hd, -⟩ | ⟨-, hd, -⟩ | ⟨-, hd, -⟩
  · exact he
  all_goals simp [h] at hd

end Sys2Proof.Machine
end

