-- ==== Sys2Proof/Laws/Step.lean ====
section
/-! SUPPORT. What a step is: the registers after it as one function, and its cases said once. -/

namespace Sys2Proof.Machine

open Sys2Proof

/-- The registers a command leaves at its accept edge. -/
def commandRegs (i : Instr) (s : State) : Regs :=
  match i with
  | .init => initEdge s.inp.gpioOk s.regs
  | .sendoff g b => sendStart s.cfg s.inp.gpioOk false g b sendReps s.regs
  | .sendon g b => sendStart s.cfg s.inp.gpioOk true g b sendReps s.regs
  | .swoff g b => sendStart s.cfg s.inp.gpioOk false g b switchReps s.regs
  | .swon g b => sendStart s.cfg s.inp.gpioOk true g b switchReps s.regs

/-- Every command answers a next state. -/
theorem exec_eq (i : Instr) (s : State) : exec i s = .next (s.after (commandRegs i s)) := by
  cases i <;> rfl

/-- The registers after a step. -/
def nextRegs (s : State) : Regs :=
  match s.accepted with
  | some c =>
    match decode c with
    | .ok i => commandRegs i s
    | .error _ => raise .invalidArgument s.regs
  | none => if s.inp.rst then Regs.reset else runEdge s.cfg s.inp.gpioOk s.regs

/-- A step never stops; it writes the registers, lets the host move on by one edge and changes nothing else. -/
theorem step_eq (s : State) : step s = .next (s.after (nextRegs s)) := by
  unfold step nextRegs
  cases s.accepted with
  | none => rfl
  | some c =>
    cases h : decode c with
    | ok i => simp only [h, exec_eq]
    | error e => simp only [h]; rfl

theorem step_next_iff {s t : State} : step s = .next t ↔ t = s.after (nextRegs s) := by
  rw [step_eq, Host.Outcome.next.injEq, eq_comm]

/-- When a word is accepted, and which (45_commands.md R150). -/
theorem accepted_eq_some {s : State} {c : CmdWord} : s.accepted = some c ↔ s.presents c := by
  unfold State.accepted State.presents
  cases s.inp.rst <;> cases s.inp.cmdValid <;> cases s.regs.phase <;> simp

theorem accepted_eq_none {s : State} :
    s.accepted = none ↔ s.inp.rst = true ∨ s.regs.phase ≠ .idle ∨ s.inp.cmdValid = false := by
  unfold State.accepted
  cases s.inp.rst <;> cases s.inp.cmdValid <;> cases s.regs.phase <;> simp

theorem nextRegs_of_rst {s : State} (h : s.inp.rst = true) : nextRegs s = Regs.reset := by
  have : s.accepted = none := accepted_eq_none.2 (.inl h)
  simp [nextRegs, this, h]

theorem nextRegs_of_busy {s : State} (hr : s.inp.rst = false) (hb : s.regs.phase ≠ .idle) :
    nextRegs s = runEdge s.cfg s.inp.gpioOk s.regs := by
  have : s.accepted = none := accepted_eq_none.2 (.inr (.inl hb))
  simp [nextRegs, this, hr]

theorem nextRegs_of_presents {s : State} {c : CmdWord} (h : s.presents c) :
    nextRegs s = match decode c with
      | .ok i => commandRegs i s
      | .error _ => raise .invalidArgument s.regs := by
  simp only [nextRegs, accepted_eq_some.2 h]

/-- Everything a step can do. -/
theorem nextRegs_cases (s : State) :
    (s.inp.rst = true ∧ nextRegs s = Regs.reset) ∨
    (s.inp.rst = false ∧ nextRegs s = edge s.regs ∧
      ((s.regs.phase = .idle ∧ s.inp.cmdValid = false) ∨
        (s.regs.phase ≠ .idle ∧ due s.regs.now s.regs.tgt = false))) ∨
    (∃ c e, s.presents c ∧ decode c = .error e ∧ nextRegs s = raise .invalidArgument s.regs) ∨
    (∃ c i, s.presents c ∧ decode c = .ok i ∧ nextRegs s = commandRegs i s) ∨
    (s.inp.rst = false ∧ due s.regs.now s.regs.tgt = true ∧
      ((s.regs.phase = .pre ∧ nextRegs s = advancePre s.cfg s.regs) ∨
        (s.regs.phase = .sync ∧ nextRegs s = advanceSync s.cfg s.regs) ∨
        (s.regs.phase = .pay ∧ nextRegs s = advancePay s.cfg s.regs) ∨
        (s.regs.phase = .post ∧ nextRegs s = advancePost s.cfg s.inp.gpioOk s.regs))) := by
  by_cases hr : s.inp.rst = true
  · exact .inl ⟨hr, nextRegs_of_rst hr⟩
  rw [Bool.not_eq_true] at hr
  right
  by_cases hi : s.regs.phase = .idle
  · by_cases hv : s.inp.cmdValid = true
    · have hp : s.presents s.inp.cmd := ⟨hr, hi, hv, rfl⟩
      have hn := nextRegs_of_presents hp
      right
      cases hd : decode s.inp.cmd with
      | ok i => exact .inr (.inl ⟨_, i, hp, hd, by rw [hn, hd]⟩)
      | error e => exact .inl ⟨_, e, hp, hd, by rw [hn, hd]⟩
    · rw [Bool.not_eq_true] at hv
      left
      have ha : s.accepted = none := accepted_eq_none.2 (.inr (.inr hv))
      exact ⟨hr, by simp [nextRegs, ha, hr, runEdge, hi], .inl ⟨hi, hv⟩⟩
  · have hn := nextRegs_of_busy hr hi
    rcases runEdge_cases s.cfg s.inp.gpioOk s.regs with ⟨h, he⟩ | h | h | h | h
    · exact .inl ⟨hr, hn.trans he, .inr ⟨hi, h.resolve_left hi⟩⟩
    · exact .inr (.inr (.inr ⟨hr, h.2.1, .inl ⟨h.1, hn.trans h.2.2⟩⟩))
    · exact .inr (.inr (.inr ⟨hr, h.2.1, .inr (.inl ⟨h.1, hn.trans h.2.2⟩)⟩))
    · exact .inr (.inr (.inr ⟨hr, h.2.1, .inr (.inr (.inl ⟨h.1, hn.trans h.2.2⟩))⟩))
    · exact .inr (.inr (.inr ⟨hr, h.2.1, .inr (.inr (.inr ⟨h.1, hn.trans h.2.2⟩))⟩))

/-- Everything a command can do at its accept edge: raise one of the two responses, put the pin in output mode, or start a
frame (45_commands.md R151, R156). -/
theorem commandRegs_cases (i : Instr) (s : State) :
    (∃ code, commandRegs i s = raise code s.regs) ∨
      (i = .init ∧ s.inp.gpioOk = true ∧ commandRegs i s = respond .ok { edge s.regs with pinOe := true }) ∨
      (i ≠ .init ∧ i.wellFormed = true ∧ s.regs.pinOe = true ∧ s.inp.gpioOk = true ∧ ∃ gi bi on reps,
        commandRegs i s = startFrame s.cfg s.regs.now gi bi on
          { edge s.regs with selG := gi, selB := bi, selOn := on, rep := reps }) := by
  have key (on : Bool) (g b : BitVec 4) (reps : Fin 5) :
      (∃ code, sendStart s.cfg s.inp.gpioOk on g b reps s.regs = raise code s.regs) ∨
        ((selectorLegal g && selectorLegal b) = true ∧ s.regs.pinOe = true ∧ s.inp.gpioOk = true ∧
          ∃ gi bi on' reps', sendStart s.cfg s.inp.gpioOk on g b reps s.regs =
            startFrame s.cfg s.regs.now gi bi on'
              { edge s.regs with selG := gi, selB := bi, selOn := on', rep := reps' }) := by
    rcases sendStart_cases s.cfg s.inp.gpioOk on g b reps s.regs with h | h | ⟨gi, bi, hg, hb, h1, h2, h⟩
    · exact .inl ⟨_, h.2⟩
    · exact .inl ⟨_, h.2.2⟩
    · have l1 := selector_isSome.1 ⟨gi, selector_eq_some.2 hg⟩
      have l2 := selector_isSome.1 ⟨bi, selector_eq_some.2 hb⟩
      exact .inr ⟨by rw [l1, l2]; rfl, h1, h2, gi, bi, on, reps, h⟩
  cases i with
  | init =>
    rcases initEdge_cases s.inp.gpioOk s.regs with h | h
    · exact .inr (.inl ⟨rfl, h⟩)
    · exact .inl ⟨_, h.2⟩
  | _ g b => exact (key _ g b _).imp_right fun h => .inr ⟨by simp, h⟩

/-- Everything a step can do, down to the single assignment: to show something of the registers after a step, show it of
these fifteen outcomes. -/
theorem nextRegs_elim (s : State) (P : Regs → Prop)
    (reset : s.inp.rst = true → P Regs.reset)
    (quiet : s.inp.rst = false →
      (s.regs.phase = .idle ∧ s.inp.cmdValid = false) ∨ (s.regs.phase ≠ .idle ∧ due s.regs.now s.regs.tgt = false) →
      P (edge s.regs))
    (raised : ∀ c code, s.presents c → P (raise code s.regs))
    (init : ∀ c, s.presents c → decode c = .ok .init → s.inp.gpioOk = true →
      P (respond .ok { edge s.regs with pinOe := true }))
    (start : ∀ c i gi bi on reps, s.presents c → decode c = .ok i → i ≠ .init → i.wellFormed = true →
      s.regs.pinOe = true → s.inp.gpioOk = true →
      P (startFrame s.cfg s.regs.now gi bi on
        { edge s.regs with selG := gi, selB := bi, selOn := on, rep := reps }))
    (pre : s.inp.rst = false → due s.regs.now s.regs.tgt = true → s.regs.phase = .pre → s.regs.cnt ≠ 0 →
      P (pinWrite false { nextSlot s.cfg s.regs with cnt := down s.regs.cnt }))
    (preEnd : s.inp.rst = false → due s.regs.now s.regs.tgt = true → s.regs.phase = .pre → s.regs.cnt = 0 →
      P (pinWrite true { nextSlot s.cfg s.regs with phase := .sync }))
    (sync : s.inp.rst = false → due s.regs.now s.regs.tgt = true → s.regs.phase = .sync →
      P (advanceSync s.cfg s.regs))
    (payRun : s.inp.rst = false → due s.regs.now s.regs.tgt = true → s.regs.phase = .pay → s.regs.run ≠ 0 →
      P (pinWrite s.regs.tog { nextSlot s.cfg s.regs with run := down s.regs.run }))
    (payBit : s.inp.rst = false → due s.regs.now s.regs.tgt = true → s.regs.phase = .pay → s.regs.run = 0 →
      s.regs.bitcnt ≠ 1 →
      P (pinWrite (!s.regs.tog) { finishBit s.cfg s.regs with run := runLoad (s.regs.shreg.getLsbD 1) }))
    (payEnd : s.inp.rst = false → due s.regs.now s.regs.tgt = true → s.regs.phase = .pay → s.regs.run = 0 →
      s.regs.bitcnt = 1 → P (pinWrite false { finishBit s.cfg s.regs with phase := .post, cnt := 1 }))
    (post : s.inp.rst = false → due s.regs.now s.regs.tgt = true → s.regs.phase = .post → s.regs.cnt ≠ 0 →
      P (pinWrite false { nextSlot s.cfg s.regs with cnt := down s.regs.cnt }))
    (complete : s.inp.rst = false → due s.regs.now s.regs.tgt = true → s.regs.phase = .post → s.regs.cnt = 0 →
      s.regs.rep = 0 → P (respond .ok { edge s.regs with phase := .idle }))
    (again : s.inp.rst = false → due s.regs.now s.regs.tgt = true → s.regs.phase = .post → s.regs.cnt = 0 →
      s.regs.rep ≠ 0 → s.inp.gpioOk = true →
      P (startFrame s.cfg s.regs.now s.regs.selG s.regs.selB s.regs.selOn
        { edge s.regs with rep := down s.regs.rep }))
    (cutShort : s.inp.rst = false → due s.regs.now s.regs.tgt = true → s.regs.phase = .post → s.regs.cnt = 0 →
      s.regs.rep ≠ 0 → s.inp.gpioOk = false →
      P (respond .hwUnavailable { edge s.regs with phase := .idle, rep := 0 })) :
    P (nextRegs s) := by
  rcases nextRegs_cases s with ⟨hr, h⟩ | ⟨hr, h, hc⟩ | ⟨c, e, hp, -, h⟩ | ⟨c, i, hp, hd, h⟩ | ⟨hr, hd, h⟩
  · exact h ▸ reset hr
  · exact h ▸ quiet hr hc
  · exact h ▸ raised _ _ hp
  · rcases commandRegs_cases i s with ⟨code, he⟩ | ⟨rfl, hg, he⟩ | ⟨hi, hw, ho, hg, gi, bi, on, reps, he⟩ <;>
      rw [h, he]
    · exact raised _ _ hp
    · exact init _ hp hd hg
    · exact start _ i _ _ _ _ hp hd hi hw ho hg
  · rcases h with ⟨hp, h⟩ | ⟨hp, h⟩ | ⟨hp, h⟩ | ⟨hp, h⟩ <;> rw [h]
    · rcases advancePre_cases s.cfg s.regs with ⟨hc, h⟩ | ⟨hc, h⟩ <;> rw [h]
      · exact pre hr hd hp hc
      · exact preEnd hr hd hp hc
    · exact sync hr hd hp
    · rcases advancePay_cases s.cfg s.regs with ⟨hc, h⟩ | ⟨hc, hb, h⟩ | ⟨hc, hb, h⟩ <;> rw [h]
      · exact payRun hr hd hp hc
      · exact payBit hr hd hp hc hb
      · exact payEnd hr hd hp hc hb
    · rcases advancePost_cases s.cfg s.inp.gpioOk s.regs with ⟨hc, h⟩ | ⟨hc, h⟩ <;> rw [h]
      · exact post hr hd hp hc
      · rcases endFrame_cases s.cfg s.inp.gpioOk s.regs with ⟨hc', h⟩ | ⟨hc', hg, h⟩ | ⟨hc', hg, h⟩ <;> rw [h]
        · exact complete hr hd hp hc hc'
        · exact again hr hd hp hc hc' hg
        · exact cutShort hr hd hp hc hc' hg

/-- A transmission stays in flight over every edge short of reset that completes no command. -/
theorem nextRegs_busy {s : State} (hr : s.inp.rst = false) (hb : s.regs.busy = true)
    (hd : (nextRegs s).done = false) : (nextRegs s).busy = true := by
  have hb' : s.regs.phase ≠ .idle := by simpa [Regs.busy] using hb
  revert hd
  apply nextRegs_elim s (fun n => n.done = false → n.busy = true) <;> intros <;>
    simp_all [Regs.busy, advanceSync, State.presents]

end Sys2Proof.Machine
end

