-- ==== Sys2Proof/Laws/Trace.lean ====
section
/-! SUPPORT. Runs: the host's levels edge by edge, observation step by step and in parts, and the wait between two slot
edges. -/

namespace Sys2Proof.Machine

open Sys2Proof

/-! ### The host's levels -/

@[simp] theorem inputAt_zero (s : State) : s.inputAt 0 = s.inp := rfl

theorem inputAt_succ (s : State) (k : Nat) : s.inputAt (k + 1) = s.hostNext.inputAt k := rfl

/-- The host's levels depend on the host's side of the state alone. -/
theorem inputAt_congr {s t : State} (hi : s.inp = t.inp) (hl : s.later = t.later) (k : Nat) :
    s.inputAt k = t.inputAt k := by
  induction k generalizing s t with
  | zero => exact hi
  | succ k ih =>
    rw [inputAt_succ, inputAt_succ]
    exact ih (by simp [State.nextInputs, hi, hl]) (by simp [hl])

@[simp] theorem after_inputAt (s : State) (n : Regs) (k : Nat) : (s.after n).inputAt k = s.inputAt (k + 1) := by
  rw [inputAt_succ]
  exact inputAt_congr (s := s.after n) (t := s.hostNext) rfl rfl k

/-- When the host has no further levels listed, it holds the levels of the next edge (log 1). -/
theorem inputAt_of_later_nil {s : State} (h : s.later = []) (k : Nat) : s.inputAt k = s.inp := by
  induction k generalizing s with
  | zero => rfl
  | succ k ih =>
    rw [inputAt_succ, ih (by simp [h])]
    simp [State.nextInputs, h]

theorem noReset_of_later_nil {s : State} (h : s.later = []) (hr : s.inp.rst = false) (k : Nat) : s.noReset k :=
  fun j _ => by rw [inputAt_of_later_nil h, hr]

theorem noReset_zero (s : State) : s.noReset 0 := fun _ h => absurd h (Nat.not_lt_zero _)

theorem noReset_succ {s : State} {k : Nat} (n : Regs) :
    s.noReset (k + 1) ↔ s.inp.rst = false ∧ (s.after n).noReset k := by
  constructor
  · intro h
    exact ⟨h 0 (Nat.succ_pos k), fun j hj => by rw [after_inputAt]; exact h (j + 1) (Nat.succ_lt_succ hj)⟩
  · rintro ⟨h0, h⟩ j hj
    cases j with
    | zero => exact h0
    | succ j => have := h j (Nat.lt_of_succ_lt_succ hj); rwa [after_inputAt] at this

theorem noReset_mono {s : State} {j k : Nat} (hjk : j ≤ k) (h : s.noReset k) : s.noReset j :=
  fun i hi => h i (Nat.lt_of_lt_of_le hi hjk)

/-! ### Observation -/

@[simp] theorem observe_zero (s : State) : observe 0 s = some ⟨[], [], s⟩ := rfl

theorem observe_succ (k : Nat) (s : State) :
    observe (k + 1) s = (observe k (s.after (nextRegs s))).map fun o =>
      ⟨edgeWrites s.regs (nextRegs s) ++ o.writes, edgeResponses (nextRegs s) ++ o.responses, o.final⟩ := by
  rw [observe, step_eq]
  rfl

/-- A run in two parts. -/
theorem observe_add (a b : Nat) (s : State) :
    observe (a + b) s = (observe a s).bind fun o => (observe b o.final).map fun o' =>
      ⟨o.writes ++ o'.writes, o.responses ++ o'.responses, o'.final⟩ := by
  induction a generalizing s with
  | zero => cases h : observe b s <;> simp [h]
  | succ a ih =>
    rw [Nat.succ_add, observe_succ, observe_succ, ih]
    cases observe a (s.after (nextRegs s)) with
    | none => rfl
    | some o => cases h : observe b o.final <;> simp [h, List.append_assoc]

/-- A run in two parts, both known. -/
theorem observe_add_of {a b : Nat} {s : State} {o o' : Observed} (h : observe a s = some o)
    (h' : observe b o.final = some o') :
    observe (a + b) s = some ⟨o.writes ++ o'.writes, o.responses ++ o'.responses, o'.final⟩ := by
  rw [observe_add, h, Option.bind_some, h', Option.map_some]

/-- What `t` is of `s` after `k` edges of a transmission that wrote nothing but `NOW` and the strobes: the same instance,
the host `k` edges on. -/
structure Later (k : Nat) (s t : State) : Prop where
  cfg : t.cfg = s.cfg
  inputs : ∀ j, t.inputAt j = s.inputAt (k + j)

theorem Later.refl (s : State) : Later 0 s s := ⟨rfl, fun j => by rw [Nat.zero_add]⟩

theorem Later.after (s : State) (n : Regs) : Later 1 s (s.after n) :=
  ⟨rfl, fun j => by rw [after_inputAt, Nat.add_comm 1 j]⟩

theorem Later.trans {a b : Nat} {s t u : State} (h : Later a s t) (h' : Later b t u) : Later (a + b) s u :=
  ⟨h'.cfg.trans h.cfg, fun j => by rw [h'.inputs, h.inputs, Nat.add_assoc]⟩

theorem Later.noReset {a b : Nat} {s t : State} (h : Later a s t) (hr : s.noReset (a + b)) : t.noReset b := by
  intro j hj
  rw [h.inputs]
  exact hr _ (by omega)

/-- The wait edges before a slot edge (R134): with the target `d` ticks ahead, `d` edges write nothing but `NOW` and the
strobes, and bring the block to the edge at which `NOW = TGT`. -/
theorem observe_wait {d : Nat} (s : State) (hb : s.regs.phase ≠ .idle) (hd : (s.regs.tgt - s.regs.now).toNat = d)
    (hlt : d < 2 ^ 31) (hr : s.noReset d) :
    ∃ t, observe d s = some ⟨[], [], t⟩ ∧ Later d s t ∧
      t.regs = { s.regs with now := s.regs.tgt, done := t.regs.done, pinWr := t.regs.pinWr } := by
  induction d generalizing s with
  | zero =>
    have hnow : s.regs.tgt = s.regs.now := by
      have : s.regs.tgt - s.regs.now = 0 := BitVec.eq_of_toNat_eq (by simpa using hd)
      exact (BitVec.sub_eq_iff_eq_add.1 this).trans (by simp)
    exact ⟨s, rfl, Later.refl s, by rw [hnow]⟩
  | succ d ih =>
    obtain ⟨h0, hr'⟩ := (noReset_succ (edge s.regs)).1 hr
    have hnd : due s.regs.now s.regs.tgt = false := by
      rw [← Bool.not_eq_true, due_iff_of_lt (by omega)]
      intro h
      simp [h] at hd
    have hn : nextRegs s = edge s.regs := by rw [nextRegs_of_busy h0 hb, runEdge_of_not_due hnd]
    have hd' : ((s.after (edge s.regs)).regs.tgt - (s.after (edge s.regs)).regs.now).toNat = d := by
      simp only [after_regs, edge_tgt, edge_now]
      have := s.regs.now.isLt; have := s.regs.tgt.isLt
      rw [BitVec.toNat_sub] at hd ⊢
      rw [BitVec.toNat_add, show (1 : BitVec 32).toNat = 1 from rfl]
      omega
    obtain ⟨t, ho, hl, ht⟩ := ih (s.after (edge s.regs)) (by simpa using hb) hd' (by omega) hr'
    refine ⟨t, ?_, by rw [Nat.add_comm]; exact (Later.after s _).trans hl, ht⟩
    rw [observe_succ, hn, ho]
    rfl

/-- While the host holds `rst = 0`, a transmission that has given no response is in flight at every edge. -/
theorem observe_busy {k : Nat} {s : State} {o : Observed} (hb : s.regs.busy = true) (hr : s.noReset k)
    (ho : observe k s = some o) (hn : o.responses = []) {j : Nat} {o' : Observed} (hj : j ≤ k)
    (ho' : observe j s = some o') : o'.final.regs.busy = true := by
  induction k generalizing s o j o' with
  | zero =>
    obtain rfl : j = 0 := by omega
    simp only [observe_zero, Option.some.injEq] at ho'
    exact ho' ▸ hb
  | succ k ih =>
    cases j with
    | zero =>
      simp only [observe_zero, Option.some.injEq] at ho'
      exact ho' ▸ hb
    | succ j =>
      rw [observe_succ] at ho ho'
      cases h2 : observe k (s.after (nextRegs s)) with
      | none => simp [h2] at ho
      | some o2 =>
        cases h3 : observe j (s.after (nextRegs s)) with
        | none => simp [h3] at ho'
        | some o3 =>
          rw [h2, Option.map_some, Option.some.injEq] at ho
          rw [h3, Option.map_some, Option.some.injEq] at ho'
          subst ho; subst ho'
          obtain ⟨h0, h1⟩ := List.append_eq_nil_iff.1 hn
          have hd : (nextRegs s).done = false := by
            cases h : (nextRegs s).done
            · rfl
            · simp [edgeResponses, h] at h0
          have := ih (nextRegs_busy (hr 0 (Nat.succ_pos k)) hb hd) ((noReset_succ _).1 hr).2 h2 h1
            (Nat.le_of_succ_le_succ hj) h3
          exact this

end Sys2Proof.Machine
end

