-- ==== Sys2Proof/Laws/Waveform.lean ====
section
/-! SUPPORT. The pure functions: bits of a number, runs, frames and the Command Code's bits. -/

namespace Sys2Proof.Machine

open Sys2Proof

/-! ### Bits of a number -/

@[simp] theorem lsbFirst_zero (v : Nat) : lsbFirst v 0 = [] := rfl

theorem lsbFirst_succ (v w : Nat) : lsbFirst v (w + 1) = decide (v % 2 = 1) :: lsbFirst (v / 2) w := rfl

@[simp] theorem lsbFirst_length (v w : Nat) : (lsbFirst v w).length = w := by
  induction w generalizing v with
  | zero => rfl
  | succ w ih => rw [lsbFirst_succ, List.length_cons, ih]

/-- Bit `i` of a number is element `i` of its bits (40_bit_encoder.md R90). -/
theorem lsbFirst_getElem? (v w i : Nat) (h : i < w) : (lsbFirst v w)[i]? = some (v.testBit i) := by
  induction w generalizing v i with
  | zero => omega
  | succ w ih =>
    cases i with
    | zero => simp [lsbFirst_succ, Nat.testBit_zero]
    | succ i => rw [lsbFirst_succ, List.getElem?_cons_succ, ih _ _ (by omega), Nat.testBit_succ]

/-- The bits of a number after its first `a` (40_bit_encoder.md R94). -/
theorem lsbFirst_add (v a b : Nat) : lsbFirst v (a + b) = lsbFirst v a ++ lsbFirst (v / 2 ^ a) b := by
  induction a generalizing v with
  | zero => simp
  | succ a ih =>
    rw [Nat.succ_add, lsbFirst_succ, lsbFirst_succ, ih, List.cons_append, Nat.div_div_eq_div_mul, Nat.pow_succ,
      Nat.mul_comm 2]

/-- Bits at or above the width are dropped (40_bit_encoder.md R92). -/
theorem lsbFirst_mod (v w : Nat) : lsbFirst (v % 2 ^ w) w = lsbFirst v w := by
  apply List.ext_getElem?
  intro i
  by_cases h : i < w
  · rw [lsbFirst_getElem? _ _ _ h, lsbFirst_getElem? _ _ _ h, Nat.testBit_mod_two_pow]
    simp [h]
  · rw [List.getElem?_eq_none (by simpa using h), List.getElem?_eq_none (by simpa using h)]

/-- `toBits` at a width in 1..32 (40_bit_encoder.md R90). -/
theorem toBits_of_le (v w : Nat) (h1 : 1 ≤ w) (h2 : w ≤ 32) : toBits v w = .ok (lsbFirst v w) := by
  unfold toBits wMax
  rw [if_neg (by omega)]
  rfl

/-! ### Runs -/

@[simp] theorem encodeFrom_nil (state : Level) : encodeFrom state [] = [] := rfl

theorem encodeFrom_cons (state : Level) (b : Bit) (bs : List Bit) :
    encodeFrom state (b :: bs) = bitRun state b ++ encodeFrom (!state) bs := rfl

@[simp] theorem bitRun_length (state : Level) (b : Bit) : (bitRun state b).length = if b then 3 else 1 := by
  cases b <;> rfl

/-- A run is its first slot and the slots that `RUN` counts (10_state.md R26). -/
theorem bitRun_eq (state : Level) (b : Bit) : bitRun state b = state :: List.replicate (runLoad b).val state := by
  cases b <;> rfl

/-- The length of an encoded sequence, from either state (41_waveform_encoder.md R101). -/
theorem encodeFrom_length (state : Level) (bits : List Bit) :
    (encodeFrom state bits).length = bits.length + 2 * ones bits := by
  induction bits generalizing state with
  | nil => rfl
  | cons b bs ih =>
    rw [encodeFrom_cons, List.length_append, ih, bitRun_length]
    cases b <;> simp [ones] <;> omega

/-- From the other state every level is inverted (41_waveform_encoder.md R103 item 5). -/
theorem encodeFrom_not (state : Level) (bits : List Bit) :
    encodeFrom (!state) bits = (encodeFrom state bits).map (!·) := by
  induction bits generalizing state with
  | nil => rfl
  | cons b bs ih =>
    rw [encodeFrom_cons, encodeFrom_cons, List.map_append, ← ih]
    simp [bitRun]

/-- The length of a frame (42_packet_framer.md R111). -/
theorem frame_length (bits : List Bit) : (frame bits).length = 29 + bits.length + 2 * ones bits := by
  simp only [frame, encodeBits, List.length_append, List.length_replicate, encodeFrom_length, preLen, syncLen, postLen]
  omega

/-! ### Command Codes -/

/-- The payload of a command: the 48 bits of its Command Code (43_command_table.md R122). -/
theorem commandBits_eq (c : Config) (gi bi : Fin 4) (on : Bool) :
    commandBits c (gi.val + 1) (bi.val + 1) on = .ok (lsbFirst (commandCode c gi bi on).toNat 48) := by
  have hg := gi.isLt
  have hb := bi.isLt
  have h : (1 : Int) ≤ gi.val + 1 ∧ (gi.val + 1 : Int) ≤ 4 ∧ (1 : Int) ≤ bi.val + 1 ∧ (bi.val + 1 : Int) ≤ 4 := by omega
  have e (x : Fin 4) (hx : (x.val + 1 : Int).toNat - 1 < 4) : (⟨(x.val + 1 : Int).toNat - 1, hx⟩ : Fin 4) = x :=
    Fin.ext (by simp)
  unfold commandBits
  rw [dif_pos h]
  simp only [e]
  rw [show (nCh : Int) = ((32 : Nat) : Int) from rfl, show (nAct : Int) = ((16 : Nat) : Int) from rfl,
    toBits_of_le _ _ (by decide) (by decide), toBits_of_le _ _ (by decide) (by decide)]
  show Except.ok _ = _
  congr 1
  have hcc : (commandCode c gi bi on).toNat = (romAct on).toNat * 2 ^ 32 + (romCh c gi bi).toNat := by
    rw [commandCode, BitVec.toNat_append, ← Nat.shiftLeft_add_eq_or_of_lt (romCh c gi bi).isLt, Nat.shiftLeft_eq]
  have hlt := (romCh c gi bi).isLt
  rw [hcc]
  refine Eq.trans ?_ (lsbFirst_add _ 32 16).symm
  congr 1
  · conv_rhs => rw [← lsbFirst_mod]
    rw [← lsbFirst_mod]
    congr 1
    omega
  · congr 1
    omega

/-! ### Schedules -/

/-- A schedule begins with its first level (44_pulse_transmitter.md R130). -/
theorem wrapTimes_schedule_cons (level : Level) (levels : List Level) (t0 p : Nat) :
    wrapTimes (schedule (level :: levels) t0 p) =
      (BitVec.ofNat 32 t0, level) :: wrapTimes (schedule levels (t0 + p) p) := by
  simp only [schedule, wrapTimes, List.mapIdx_cons, List.map_cons, Nat.zero_mul, Nat.add_zero, List.cons.injEq,
    true_and]
  congr 2
  funext i level
  rw [Nat.add_mul, Nat.one_mul, Nat.add_comm (i * p), Nat.add_assoc]

/-- A schedule in two parts. -/
theorem wrapTimes_schedule_append (a b : List Level) (t0 p : Nat) :
    wrapTimes (schedule (a ++ b) t0 p) =
      wrapTimes (schedule a t0 p) ++ wrapTimes (schedule b (t0 + a.length * p) p) := by
  induction a generalizing t0 with
  | nil => simp [schedule, wrapTimes]
  | cons level a ih =>
    rw [List.cons_append, wrapTimes_schedule_cons, wrapTimes_schedule_cons, ih, List.length_cons, Nat.succ_mul,
      List.cons_append, Nat.add_assoc, Nat.add_comm p]

/-- Two start times that agree modulo `2^32` give the same schedule modulo `2^32`. -/
theorem wrapTimes_schedule_congr {t t' : Nat} (h : t % 2 ^ 32 = t' % 2 ^ 32) (levels : List Level) (p : Nat) :
    wrapTimes (schedule levels t p) = wrapTimes (schedule levels t' p) := by
  induction levels generalizing t t' with
  | nil => rfl
  | cons level levels ih =>
    rw [wrapTimes_schedule_cons, wrapTimes_schedule_cons, ih (t := t + p) (t' := t' + p) (by omega)]
    congr 2
    exact BitVec.eq_of_toNat_eq (by simpa using h)

/-- One more repetition. -/
theorem repeatLevels_succ (k : Nat) (levels : List Level) :
    repeatLevels (k + 1) levels = levels ++ repeatLevels k levels := by
  simp [repeatLevels, List.replicate_succ]

end Sys2Proof.Machine
end

