-- ==== Sys2Proof/Laws/Frame.lean ====
section
/-! SUPPORT. The levels a frame in flight has still to write, and one whole slot of it. -/

namespace Sys2Proof.Machine

open Sys2Proof

/-- The levels the frame in flight has still to write after the slot now on the pin (44_pulse_transmitter.md R141). -/
def levelsLeft (r : Regs) : List Level :=
  match r.phase with
  | .idle => []
  | .pre =>
    List.replicate r.cnt.val false ++ true :: (encodeFrom r.tog (lsbFirst r.shreg.toNat r.bitcnt.val) ++ [false, false])
  | .sync => encodeFrom r.tog (lsbFirst r.shreg.toNat r.bitcnt.val) ++ [false, false]
  | .pay =>
    List.replicate r.run.val r.tog ++
      (encodeFrom (!r.tog) (lsbFirst (r.shreg.toNat / 2) (r.bitcnt.val - 1)) ++ [false, false])
  | .post => List.replicate r.cnt.val false

/-- A frame in flight has payload bits left until its postamble (10_state.md R34 items 4 to 6). -/
def bitsLeft (r : Regs) : Prop := r.phase ≠ .idle ∧ (r.phase ≠ .post → r.bitcnt.val ≠ 0)

/-- The registers that no slot of a frame writes: the latched selection, the frames to come, the response, the pin's
mode. -/
structure SameCommand (r n : Regs) : Prop where
  rep : n.rep = r.rep
  selG : n.selG = r.selG
  selB : n.selB = r.selB
  selOn : n.selOn = r.selOn
  resp : n.resp = r.resp
  pinOe : n.pinOe = r.pinOe

theorem SameCommand.refl (r : Regs) : SameCommand r r := ⟨rfl, rfl, rfl, rfl, rfl, rfl⟩

theorem SameCommand.trans {r n m : Regs} (h : SameCommand r n) (h' : SameCommand n m) : SameCommand r m :=
  ⟨h'.rep.trans h.rep, h'.selG.trans h.selG, h'.selB.trans h.selB, h'.selOn.trans h.selOn, h'.resp.trans h.resp,
    h'.pinOe.trans h.pinOe⟩

/-- What an advance that begins a slot leaves (44_pulse_transmitter.md R134 to R139): the slot's level written, the target
one pulse width on, the rest of the frame still to come. -/
structure BeginsSlot (c : Config) (r n : Regs) (level : Level) (rest : List Level) : Prop where
  now : n.now = r.now + 1
  tgt : n.tgt = r.tgt + pulse c
  pinWr : n.pinWr = true
  pinLvl : n.pinLvl = level
  done : n.done = false
  left : levelsLeft n = rest
  bits : bitsLeft n
  same : SameCommand r n

theorem beginsSlot_pre {c : Config} {r : Regs} {level : Level} {rest : List Level} (hp : r.phase = .pre)
    (hb : r.bitcnt.val ≠ 0) (hl : levelsLeft r = level :: rest) : BeginsSlot c r (advancePre c r) level rest := by
  simp only [levelsLeft, hp] at hl
  rcases advancePre_cases c r with ⟨hc, h⟩ | ⟨hc, h⟩ <;> rw [h]
  · obtain ⟨k, hk⟩ : ∃ k, r.cnt.val = k + 1 := Nat.exists_eq_succ_of_ne_zero fun h => hc (Fin.ext h)
    rw [hk, List.replicate_succ, List.cons_append, List.cons.injEq] at hl
    exact ⟨rfl, rfl, rfl, hl.1, rfl, by simp [levelsLeft, hp, hk, ← hl.2], by simp [bitsLeft, hp, hb],
      ⟨rfl, rfl, rfl, rfl, rfl, rfl⟩⟩
  · rw [hc, Fin.val_zero, List.replicate_zero, List.nil_append, List.cons.injEq] at hl
    exact ⟨rfl, rfl, rfl, hl.1, rfl, by simp [levelsLeft, ← hl.2], by simp [bitsLeft, hb],
      ⟨rfl, rfl, rfl, rfl, rfl, rfl⟩⟩

theorem beginsSlot_sync {c : Config} {r : Regs} {level : Level} {rest : List Level} (hp : r.phase = .sync)
    (hb : r.bitcnt.val ≠ 0) (hl : levelsLeft r = level :: rest) : BeginsSlot c r (advanceSync c r) level rest := by
  obtain ⟨k, hk⟩ := Nat.exists_eq_succ_of_ne_zero hb
  have h0 : decide (r.shreg.toNat % 2 = 1) = r.shreg.getLsbD 0 := (Nat.testBit_zero _).symm
  simp only [levelsLeft, hp] at hl
  rw [hk, lsbFirst_succ, encodeFrom_cons, bitRun_eq, h0, List.cons_append, List.cons_append, List.cons.injEq] at hl
  exact ⟨rfl, rfl, rfl, hl.1, rfl, by simp [levelsLeft, advanceSync, hk, ← hl.2, List.append_assoc],
    by simp [bitsLeft, advanceSync, hb], ⟨rfl, rfl, rfl, rfl, rfl, rfl⟩⟩

theorem beginsSlot_pay {c : Config} {r : Regs} {level : Level} {rest : List Level} (hp : r.phase = .pay)
    (hb : r.bitcnt.val ≠ 0) (hl : levelsLeft r = level :: rest) : BeginsSlot c r (advancePay c r) level rest := by
  simp only [levelsLeft, hp] at hl
  have hb0 : r.bitcnt ≠ 0 := fun h => hb (by simp [h])
  rcases advancePay_cases c r with ⟨hr, h⟩ | ⟨hr, hb1, h⟩ | ⟨hr, hb1, h⟩ <;> rw [h]
  · obtain ⟨k, hk⟩ : ∃ k, r.run.val = k + 1 := Nat.exists_eq_succ_of_ne_zero fun h => hr (Fin.ext h)
    rw [hk, List.replicate_succ, List.cons_append, List.cons.injEq] at hl
    exact ⟨rfl, rfl, rfl, hl.1, rfl, by simp [levelsLeft, hp, hk, ← hl.2], by simp [bitsLeft, hp, hb],
      ⟨rfl, rfl, rfl, rfl, rfl, rfl⟩⟩
  · obtain ⟨k, hk⟩ : ∃ k, r.bitcnt.val - 1 = k + 1 := by
      refine Nat.exists_eq_succ_of_ne_zero fun h => ?_
      have : r.bitcnt.val ≠ 1 := fun h' => hb1 (Fin.ext h')
      omega
    have h1 : decide (r.shreg.toNat / 2 % 2 = 1) = r.shreg.getLsbD 1 := by
      rw [← Nat.testBit_zero, ← Nat.testBit_succ]
      rfl
    rw [hr, Fin.val_zero, List.replicate_zero, List.nil_append, hk, lsbFirst_succ, encodeFrom_cons, bitRun_eq, h1,
      List.cons_append, List.cons_append, List.cons.injEq] at hl
    refine ⟨rfl, rfl, rfl, hl.1, rfl, ?_, by simp [bitsLeft, hp, bitcntDown_eq_down hb0, hk], ⟨rfl, rfl, rfl, rfl, rfl, rfl⟩⟩
    simp [levelsLeft, hp, bitcntDown_eq_down hb0, hk, ← hl.2, List.append_assoc, Nat.shiftRight_eq_div_pow]
  · rw [hr, hb1] at hl
    simp only [Fin.val_zero, List.replicate_zero, List.nil_append, Fin.val_one, Nat.sub_self, lsbFirst_zero,
      encodeFrom_nil, List.cons.injEq] at hl
    exact ⟨rfl, rfl, rfl, hl.1, rfl, by simp [levelsLeft, ← hl.2], by simp [bitsLeft], ⟨rfl, rfl, rfl, rfl, rfl, rfl⟩⟩

theorem beginsSlot_post {c : Config} {gpioOk : Bool} {r : Regs} {level : Level} {rest : List Level}
    (hp : r.phase = .post) (hl : levelsLeft r = level :: rest) :
    BeginsSlot c r (advancePost c gpioOk r) level rest := by
  simp only [levelsLeft, hp] at hl
  rcases advancePost_cases c gpioOk r with ⟨hc, h⟩ | ⟨hc, h⟩
  · rw [h]
    obtain ⟨k, hk⟩ : ∃ k, r.cnt.val = k + 1 := Nat.exists_eq_succ_of_ne_zero fun h => hc (Fin.ext h)
    rw [hk, List.replicate_succ, List.cons.injEq] at hl
    exact ⟨rfl, rfl, rfl, hl.1, rfl, by simp [levelsLeft, hp, hk, ← hl.2], by simp [bitsLeft, hp],
      ⟨rfl, rfl, rfl, rfl, rfl, rfl⟩⟩
  · simp [hc] at hl

/-- A due edge of a frame that has a level left begins that level's slot. -/
theorem beginsSlot_runEdge {c : Config} {gpioOk : Bool} {r : Regs} {level : Level} {rest : List Level}
    (hb : bitsLeft r) (hd : due r.now r.tgt = true) (hl : levelsLeft r = level :: rest) :
    BeginsSlot c r (runEdge c gpioOk r) level rest := by
  rcases runEdge_cases c gpioOk r with ⟨h, -⟩ | ⟨hp, -, h⟩ | ⟨hp, -, h⟩ | ⟨hp, -, h⟩ | ⟨hp, -, h⟩
  · rcases h with h | h
    · exact absurd h hb.1
    · rw [hd] at h; exact absurd h (by decide)
  · rw [h]; exact beginsSlot_pre hp (hb.2 (by simp [hp])) hl
  · rw [h]; exact beginsSlot_sync hp (hb.2 (by simp [hp])) hl
  · rw [h]; exact beginsSlot_pay hp (hb.2 (by simp [hp])) hl
  · rw [h]; exact beginsSlot_post hp hl

/-- A frame that has no level left is at its last postamble slot. -/
theorem post_of_levelsLeft_nil {r : Regs} (hb : r.phase ≠ .idle) (hl : levelsLeft r = []) :
    r.phase = .post ∧ r.cnt = 0 := by
  unfold levelsLeft at hl
  cases hp : r.phase with
  | idle => exact absurd hp hb
  | post =>
    simp only [hp, List.replicate_eq_nil_iff] at hl
    exact ⟨rfl, Fin.ext hl⟩
  | _ => simp [hp] at hl

/-- Neither `levelsLeft` nor what else a slot is about depends on the time or on the strobes. -/
theorem levelsLeft_times (r : Regs) (now : Word) (done pinWr : Bool) :
    levelsLeft { r with now := now, done := done, pinWr := pinWr } = levelsLeft r := rfl

/-- The frame that `StartFrame` begins: its first slot is written at once, the others are left (R135, R141). -/
theorem levelsLeft_startFrame (c : Config) (t : Word) (gi bi : Fin 4) (on : Bool) (n : Regs) :
    frame (lsbFirst (commandCode c gi bi on).toNat 48) = false :: levelsLeft (startFrame c t gi bi on n) := by
  rfl

/-- One whole slot (44_pulse_transmitter.md R140): from the due edge that begins it, `P` edges make the one pin write of its
level and bring the block to the next due edge, whatever the host does short of reset. -/
theorem observe_slot {s : State} {level : Level} {rest : List Level} (hP : 1 ≤ s.cfg.pulseTicks)
    (hP2 : s.cfg.pulseTicks < 2 ^ 31) (hb : bitsLeft s.regs) (hnow : s.regs.now = s.regs.tgt)
    (hl : levelsLeft s.regs = level :: rest) (hr : s.noReset s.cfg.pulseTicks) :
    ∃ t, observe s.cfg.pulseTicks s = some ⟨[(s.regs.now, level)], [], t⟩ ∧ Later s.cfg.pulseTicks s t ∧
      bitsLeft t.regs ∧ t.regs.now = t.regs.tgt ∧ t.regs.tgt = s.regs.tgt + pulse s.cfg ∧
      levelsLeft t.regs = rest ∧ SameCommand s.regs t.regs := by
  obtain ⟨p, hp⟩ : ∃ p, s.cfg.pulseTicks = p + 1 := Nat.exists_eq_succ_of_ne_zero (by omega)
  have hd : due s.regs.now s.regs.tgt = true := by rw [hnow]; simp [due]
  rw [hp] at hr
  have hn : nextRegs s = runEdge s.cfg s.inp.gpioOk s.regs :=
    nextRegs_of_busy (hr 0 (Nat.succ_pos p)) hb.1
  have hs : BeginsSlot s.cfg s.regs (nextRegs s) level rest := hn ▸ beginsSlot_runEdge hb hd hl
  obtain ⟨-, hr'⟩ := (noReset_succ (nextRegs s)).1 hr
  have hgap : ((s.after (nextRegs s)).regs.tgt - (s.after (nextRegs s)).regs.now).toNat = p := by
    rw [after_regs, hs.tgt, hs.now, hnow, pulse, hp]
    have := s.regs.tgt.isLt
    rw [BitVec.toNat_sub, BitVec.toNat_add, BitVec.toNat_add, BitVec.toNat_ofNat, show (1 : Word).toNat = 1 from rfl]
    omega
  obtain ⟨t, ho, hlat, ht⟩ := observe_wait (s.after (nextRegs s)) hs.bits.1 hgap (by omega) hr'
  rw [after_regs] at ht
  refine ⟨t, ?_, by rw [hp, Nat.add_comm]; exact (Later.after s _).trans hlat, ?_, ?_, ?_, ?_, ?_⟩
  · rw [hp, observe_succ, ho]
    simp [edgeWrites, edgeResponses, hs.pinWr, hs.pinLvl, hs.done]
  · rw [ht]; exact hs.bits
  · rw [ht]
  · rw [ht]; exact hs.tgt
  · rw [ht]; exact hs.left
  · rw [ht]; exact ⟨hs.same.rep, hs.same.selG, hs.same.selB, hs.same.selOn, hs.same.resp, hs.same.pinOe⟩

/-- The block is at the last due edge of a frame: its last postamble slot is over and the frame ends at the next edge. -/
structure AtFrameEnd (s : State) : Prop where
  phase : s.regs.phase = .post
  cnt : s.regs.cnt = 0
  now : s.regs.now = s.regs.tgt

/-- The rest of a frame (44_pulse_transmitter.md R140, R141): from a due edge, the levels left are written one pulse width
apart, with no response on the way. -/
theorem observe_levelsLeft (levels : List Level) {s : State} {t0 : Nat} (hP : 1 ≤ s.cfg.pulseTicks)
    (hP2 : s.cfg.pulseTicks < 2 ^ 31) (hb : bitsLeft s.regs) (hnow : s.regs.now = s.regs.tgt)
    (ht : s.regs.tgt = BitVec.ofNat 32 t0) (hl : levelsLeft s.regs = levels)
    (hr : s.noReset (levels.length * s.cfg.pulseTicks)) :
    ∃ t, observe (levels.length * s.cfg.pulseTicks) s =
        some ⟨wrapTimes (schedule levels t0 s.cfg.pulseTicks), [], t⟩ ∧
      Later (levels.length * s.cfg.pulseTicks) s t ∧ AtFrameEnd t ∧
      t.regs.tgt = BitVec.ofNat 32 (t0 + levels.length * s.cfg.pulseTicks) ∧ SameCommand s.regs t.regs := by
  induction levels generalizing s t0 with
  | nil =>
    obtain ⟨hp, hc⟩ := post_of_levelsLeft_nil hb.1 hl
    exact ⟨s, by simp [schedule, wrapTimes], by simpa using Later.refl s, ⟨hp, hc, hnow⟩, by simpa using ht,
      SameCommand.refl _⟩
  | cons level levels ih =>
    rw [List.length_cons, Nat.succ_mul, Nat.add_comm] at hr ⊢
    obtain ⟨t, ho, hlat, hb', hn', ht', hl', hs'⟩ :=
      observe_slot hP hP2 hb hnow hl (noReset_mono (Nat.le_add_right _ _) hr)
    have hc := hlat.cfg
    have ht0 : t.regs.tgt = BitVec.ofNat 32 (t0 + s.cfg.pulseTicks) := by rw [ht', ht, pulse, BitVec.ofNat_add]
    obtain ⟨u, hou, hlu, hu, htu, hsu⟩ :=
      ih (hc ▸ hP) (hc ▸ hP2) hb' hn' ht0 hl' (hc ▸ hlat.noReset hr)
    rw [hc] at hou hlu htu
    refine ⟨u, ?_, hlat.trans hlu, hu, by rw [htu, Nat.add_assoc], hs'.trans hsu⟩
    rw [observe_add_of ho hou, wrapTimes_schedule_cons, hnow, ht]
    rfl

/-- The next edge of `s` starts a frame with this selection and `reps` frames to come after it. -/
structure StartsFrame (s : State) (gi bi : Fin 4) (on : Bool) (reps : Nat) (n : Regs) : Prop where
  next : nextRegs s = startFrame s.cfg s.regs.now gi bi on n
  now : n.now = s.regs.now + 1
  done : n.done = false
  selG : n.selG = gi
  selB : n.selB = bi
  selOn : n.selOn = on
  rep : n.rep.val = reps
  pinOe : n.pinOe = true

/-- One frame from the edge that starts it (44_pulse_transmitter.md R141), for a frame of `levels`. -/
theorem observe_startFrame {s : State} {gi bi : Fin 4} {on : Bool} {reps : Nat} {n : Regs} {levels : List Level}
    (hs : StartsFrame s gi bi on reps n) (hP : 1 ≤ s.cfg.pulseTicks) (hP2 : s.cfg.pulseTicks < 2 ^ 31)
    (hl : levels = frame (lsbFirst (commandCode s.cfg gi bi on).toNat 48))
    (hr : s.noReset (levels.length * s.cfg.pulseTicks)) :
    ∃ t, observe (levels.length * s.cfg.pulseTicks) s =
        some ⟨wrapTimes (schedule levels s.regs.now.toNat s.cfg.pulseTicks), [], t⟩ ∧
      Later (levels.length * s.cfg.pulseTicks) s t ∧ AtFrameEnd t ∧
      t.regs.tgt = BitVec.ofNat 32 (s.regs.now.toNat + levels.length * s.cfg.pulseTicks) ∧ SameCommand n t.regs := by
  have hnext := hs.next
  obtain ⟨p, hp⟩ : ∃ p, s.cfg.pulseTicks = p + 1 := Nat.exists_eq_succ_of_ne_zero (by omega)
  rw [levelsLeft_startFrame s.cfg s.regs.now gi bi on n, ← hnext] at hl
  subst hl
  rw [List.length_cons, Nat.succ_mul, Nat.add_comm] at hr ⊢
  have hr1 : s.noReset (p + 1) := hp ▸ noReset_mono (Nat.le_add_right _ _) hr
  have hb : bitsLeft (nextRegs s) := by rw [hnext]; simp [bitsLeft]
  have htgt : (nextRegs s).tgt = s.regs.now + pulse s.cfg := by rw [hnext]; rfl
  have hnow : (nextRegs s).now = s.regs.now + 1 := by rw [hnext]; exact hs.now
  have hgap : ((s.after (nextRegs s)).regs.tgt - (s.after (nextRegs s)).regs.now).toNat = p := by
    rw [after_regs, htgt, hnow, pulse, hp]
    have := s.regs.now.isLt
    rw [BitVec.toNat_sub, BitVec.toNat_add, BitVec.toNat_add, BitVec.toNat_ofNat, show (1 : Word).toNat = 1 from rfl]
    omega
  obtain ⟨t, ho, hlat, ht⟩ :=
    observe_wait (s.after (nextRegs s)) hb.1 hgap (by omega) ((noReset_succ (nextRegs s)).1 hr1).2
  rw [after_regs] at ht
  have hlat' : Later s.cfg.pulseTicks s t := by rw [hp, Nat.add_comm]; exact (Later.after s _).trans hlat
  have ho' : observe s.cfg.pulseTicks s = some ⟨[(s.regs.now, false)], [], t⟩ := by
    rw [hp, observe_succ, ho, hnext]
    simp [edgeWrites, edgeResponses, hs.done]
  have hc := hlat'.cfg
  have htt : t.regs.tgt = BitVec.ofNat 32 (s.regs.now.toNat + s.cfg.pulseTicks) := by
    rw [ht]
    show (nextRegs s).tgt = _
    rw [htgt, pulse, BitVec.ofNat_add, BitVec.ofNat_toNat, BitVec.setWidth_eq]
  obtain ⟨u, hou, hlu, hu, htu, hsu⟩ := observe_levelsLeft (levelsLeft (nextRegs s)) (hc ▸ hP) (hc ▸ hP2)
    (by rw [ht]; exact hb) (by rw [ht]) htt (by rw [ht]; rfl) (by rw [hc]; exact hlat'.noReset hr)
  rw [hc] at hou hlu htu
  have hsame : SameCommand n t.regs := by rw [ht, hnext]; exact ⟨rfl, rfl, rfl, rfl, rfl, rfl⟩
  refine ⟨u, ?_, hlat'.trans hlu, hu, by rw [htu, Nat.add_assoc], hsame.trans hsu⟩
  rw [observe_add_of ho' hou, wrapTimes_schedule_cons]
  simp

/-! ### The end of a frame -/

/-- What the edge that ends a frame does (45_commands.md R157). -/
theorem nextRegs_of_atFrameEnd {s : State} (h : AtFrameEnd s) (hr : s.inp.rst = false) :
    nextRegs s = endFrame s.cfg s.inp.gpioOk s.regs := by
  have hd : due s.regs.now s.regs.tgt = true := by rw [h.now]; simp [due]
  rw [nextRegs_of_busy hr (by simp [h.phase])]
  simp [runEdge, h.phase, hd, advancePost, h.cnt]

/-- The edge that ends the last frame answers `OK` and makes no pin write. -/
theorem observe_complete {s : State} (h : AtFrameEnd s) (hr : s.inp.rst = false) (hrep : s.regs.rep = 0) :
    observe 1 s = some ⟨[], [.ok], s.after (respond .ok { edge s.regs with phase := .idle })⟩ := by
  have : nextRegs s = respond .ok { edge s.regs with phase := .idle } := by
    rw [nextRegs_of_atFrameEnd h hr, endFrame, if_pos hrep]
  rw [observe_succ, this]
  simp [edgeWrites, edgeResponses]

/-- The edge that cuts a command short answers `HwUnavailable` and makes no pin write. -/
theorem observe_cutShort {s : State} (h : AtFrameEnd s) (hr : s.inp.rst = false) (hrep : s.regs.rep ≠ 0)
    (hg : s.inp.gpioOk = false) :
    observe 1 s =
      some ⟨[], [.hwUnavailable], s.after (respond .hwUnavailable { edge s.regs with phase := .idle, rep := 0 })⟩ := by
  have : nextRegs s = respond .hwUnavailable { edge s.regs with phase := .idle, rep := 0 } := by
    rw [nextRegs_of_atFrameEnd h hr, endFrame, if_neg hrep, if_neg (by simp [hg])]
  rw [observe_succ, this]
  simp [edgeWrites, edgeResponses]

/-- At the end of a frame that is not the last, with the pin subsystem accessible, the next frame starts. -/
theorem startsFrame_of_atFrameEnd {s : State} (h : AtFrameEnd s) (hr : s.inp.rst = false) (hrep : s.regs.rep ≠ 0)
    (hg : s.inp.gpioOk = true) (ho : s.regs.pinOe = true) :
    StartsFrame s s.regs.selG s.regs.selB s.regs.selOn (s.regs.rep.val - 1)
      { edge s.regs with rep := down s.regs.rep } := by
  refine ⟨?_, rfl, rfl, rfl, rfl, rfl, rfl, ho⟩
  rw [nextRegs_of_atFrameEnd h hr, endFrame, if_neg hrep, if_pos hg]

/-- Frames back to back: from the edge that starts a frame, that frame and `m` further ones (45_commands.md R157), when the
pin subsystem is accessible at each further start. -/
theorem observe_frames (m : Nat) {s : State} {gi bi : Fin 4} {on : Bool} {reps N : Nat} {n : Regs} {levels : List Level}
    (hs : StartsFrame s gi bi on reps n) (hP : 1 ≤ s.cfg.pulseTicks) (hP2 : s.cfg.pulseTicks < 2 ^ 31)
    (hl : levels = frame (lsbFirst (commandCode s.cfg gi bi on).toNat 48)) (hN : N = levels.length * s.cfg.pulseTicks)
    (hm : m ≤ reps) (hg : ∀ j, 1 ≤ j → j ≤ m → (s.inputAt (j * N)).gpioOk = true) (hr : s.noReset ((m + 1) * N)) :
    ∃ t, observe ((m + 1) * N) s =
        some ⟨wrapTimes (schedule (repeatLevels (m + 1) levels) s.regs.now.toNat s.cfg.pulseTicks), [], t⟩ ∧
      Later ((m + 1) * N) s t ∧ AtFrameEnd t ∧ t.regs.tgt = BitVec.ofNat 32 (s.regs.now.toNat + (m + 1) * N) ∧
      t.regs.rep.val = reps - m ∧ t.regs.selG = gi ∧ t.regs.selB = bi ∧ t.regs.selOn = on ∧ t.regs.pinOe = true := by
  induction m generalizing s reps n with
  | zero =>
    rw [Nat.zero_add, Nat.one_mul] at hr ⊢
    obtain ⟨u, hou, hlu, hu, htu, hsu⟩ := observe_startFrame hs hP hP2 hl (hN ▸ hr)
    rw [← hN] at hou hlu htu
    refine ⟨u, ?_, hlu, hu, htu, by rw [hsu.rep]; exact hs.rep, hsu.selG.trans hs.selG, hsu.selB.trans hs.selB,
      hsu.selOn.trans hs.selOn, hsu.pinOe.trans hs.pinOe⟩
    rw [hou, repeatLevels_succ]
    simp [repeatLevels]
  | succ m ih =>
    have hadd : (m + 1 + 1) * N = N + (m + 1) * N := by rw [Nat.add_mul (m + 1), Nat.one_mul, Nat.add_comm]
    rw [hadd] at hr ⊢
    obtain ⟨u, hou, hlu, hu, htu, hsu⟩ :=
      observe_startFrame hs hP hP2 hl (hN ▸ noReset_mono (Nat.le_add_right _ _) hr)
    rw [← hN] at hou hlu htu
    have hc := hlu.cfg
    have hpos : 1 ≤ N := by
      rw [hN, hl, frame_length]
      exact Nat.one_le_iff_ne_zero.2 (Nat.mul_ne_zero (by omega) (by omega))
    have hru := hlu.noReset hr
    have hle := Nat.mul_le_mul_right N (show 1 ≤ m + 1 by omega)
    have hu0 : u.inp.rst = false := hru 0 (by omega)
    have hug : u.inp.gpioOk = true := by
      rw [← inputAt_zero, hlu.inputs, ← Nat.one_mul N]
      exact hg 1 (le_refl 1) (by omega)
    have hurep : u.regs.rep.val = reps := hsu.rep.symm ▸ hs.rep
    have hs' := startsFrame_of_atFrameEnd hu hu0 (fun h => by rw [h, Fin.val_zero] at hurep; omega) hug
      (hsu.pinOe.trans hs.pinOe)
    rw [hsu.selG.trans hs.selG, hsu.selB.trans hs.selB, hsu.selOn.trans hs.selOn, hurep] at hs'
    obtain ⟨t, hot, hlt, ht, htt, hrep, hsel⟩ := ih hs' (hc ▸ hP) (hc ▸ hP2) (hc ▸ hl) (hc ▸ hN) (by omega)
      (fun j hj hjm => by
        rw [hlu.inputs, Nat.add_comm, ← Nat.succ_mul]
        exact hg (j + 1) (by omega) (by omega)) hru
    have hnow : u.regs.now.toNat = (s.regs.now.toNat + N) % 2 ^ 32 := by rw [hu.now, htu]; rfl
    refine ⟨t, ?_, hlu.trans hlt, ht, ?_, by omega, hsel⟩
    · rw [observe_add_of hou hot, hc, repeatLevels_succ (m + 1), wrapTimes_schedule_append, ← hN,
        wrapTimes_schedule_congr (t := u.regs.now.toNat) (t' := s.regs.now.toNat + N) (by omega)]
      rfl
    · rw [htt]
      apply BitVec.eq_of_toNat_eq
      rw [BitVec.toNat_ofNat, BitVec.toNat_ofNat, hnow]
      omega

end Sys2Proof.Machine
end

