-- ==== Sys2Proof/Laws/PerInstr.lean ====
section
/-! SUPPORT. A statement about every command as syntax, one lemma per constructor: its word is of a row of the opcode
map, and that row gives the command back. -/

namespace Sys2Proof.Laws.OpcodeRow

open Sys2Proof

/-- The word of `i` is of a row of the opcode map (30_encoding.md R62), and the row reads `i` from its fields. -/
def Statement (i : Instr) : Prop :=
  ∃ r ∈ opcodeRows, encode i &&& r.mask = r.pattern ∧ r.command (groupField (encode i)) (buttonField (encode i)) = i

/-- A word of format C with `RSV = 0`, masked by a SEND or SWITCH row, keeps its `OP` alone. -/
theorem masked (op g b : BitVec 4) : formatC op 0#4 g b &&& 0xFF00#16 = formatC op 0#4 0#4 0#4 :=
  formatC_and_mask op 0#4 g b

theorem init : Statement .init :=
  ⟨⟨0x1000#16, 0xFFFF#16, fun _ _ => .init⟩, .head _, by decide, rfl⟩

theorem sendoff (group button : BitVec 4) : Statement (.sendoff group button) :=
  ⟨⟨0x2000#16, 0xFF00#16, .sendoff⟩, .tail _ (.head _), (masked 2#4 group button).trans (by decide), by simp [encode]⟩

theorem sendon (group button : BitVec 4) : Statement (.sendon group button) :=
  ⟨⟨0x3000#16, 0xFF00#16, .sendon⟩, .tail _ (.tail _ (.head _)), (masked 3#4 group button).trans (by decide),
    by simp [encode]⟩

theorem swoff (group button : BitVec 4) : Statement (.swoff group button) :=
  ⟨⟨0x4000#16, 0xFF00#16, .swoff⟩, .tail _ (.tail _ (.tail _ (.head _))), (masked 4#4 group button).trans (by decide),
    by simp [encode]⟩

theorem swon (group button : BitVec 4) : Statement (.swon group button) :=
  ⟨⟨0x5000#16, 0xFF00#16, .swon⟩, .tail _ (.tail _ (.tail _ (.tail _ (.head _)))),
    (masked 5#4 group button).trans (by decide), by simp [encode]⟩

end Sys2Proof.Laws.OpcodeRow
end

