-- ==== Sys2Proof/Tests/Slice0.lean ====
section
/-! SUPPORT. The model's own tests, and a witness for the hypotheses of every statement. Expected values are those of
spec/95_test_vectors.md, whose section each test names, or follow by hand from the rule named. -/

namespace Sys2Proof.Tests

open Sys2Proof Sys2Proof.Machine

/-! ### Helpers -/

/-- The synthetic Channel Code table T-SYN of 95_test_vectors.md section 2. -/
def synTable : Vector (Vector (BitVec 32) 4) 4 :=
  #v[#v[0x01020304#32, 0x82040609#32, 0x0306090C#32, 0x84080C11#32],
     #v[0x050A0F14#32, 0x860C1219#32, 0x070E151C#32, 0x88101821#32],
     #v[0x09121B24#32, 0x8A141E29#32, 0x0B16212C#32, 0x8C182431#32],
     #v[0x0D1A2734#32, 0x8E1C2A39#32, 0x0F1E2D3C#32, 0x90203041#32]]

/-- An instance with table T-SYN and a pulse width. -/
def syn (pulseTicks : Nat) : Config := ⟨pulseTicks, synTable⟩

/-- Levels at an edge that presents a word. -/
def word (cmd : CmdWord) (gpioOk : Bool) : Inputs := ⟨false, true, cmd, gpioOk⟩

/-- A state of an instance whose host holds the levels `i`. -/
def holding (c : Config) (r : Regs) (i : Inputs) : State := ⟨c, r, i, []⟩

/-- Registers at a time, with the pin initialised and the rest as after reset. -/
def ready (now : Word) : Regs := { Regs.reset with now := now, pinOe := true }

/-- Registers of a transmission in flight with the target due. -/
def dueIn (phase : Phase) (now : Word) : Regs := { ready now with phase := phase, tgt := now }

/-- A sequence written as a string of digits, element 0 leftmost (95_test_vectors.md, Conventions). -/
def digits (n w : Nat) : List Bool := (lsbFirst n w).reverse

theorem syn_wf_1 : (syn 1).wf := by decide
theorem syn_wf_450 : (syn 450).wf := by decide
/-- The greatest pulse width (R7). -/
theorem syn_wf_max : (syn (2 ^ 31 - 1)).wf := by decide

/-! ### Well-formedness: the ill-formed are refused (30_encoding.md R63) -/

theorem test_wellFormed_refuses_group_0 :
    (Instr.sendoff 0 1).wellFormed = false ∧ (Instr.sendon 0 1).wellFormed = false ∧
      (Instr.swoff 0 1).wellFormed = false ∧ (Instr.swon 0 1).wellFormed = false := by decide

theorem test_wellFormed_refuses_group_5 :
    (Instr.sendoff 5 1).wellFormed = false ∧ (Instr.sendon 5 1).wellFormed = false ∧
      (Instr.swoff 5 1).wellFormed = false ∧ (Instr.swon 5 1).wellFormed = false := by decide

theorem test_wellFormed_refuses_button_0 :
    (Instr.sendoff 1 0).wellFormed = false ∧ (Instr.sendon 1 0).wellFormed = false ∧
      (Instr.swoff 1 0).wellFormed = false ∧ (Instr.swon 1 0).wellFormed = false := by decide

theorem test_wellFormed_refuses_button_15 :
    (Instr.sendoff 1 15).wellFormed = false ∧ (Instr.sendon 1 15).wellFormed = false ∧
      (Instr.swoff 1 15).wellFormed = false ∧ (Instr.swon 1 15).wellFormed = false := by decide

theorem test_wellFormed_accepts_1_to_4 :
    Instr.init.wellFormed = true ∧ (Instr.sendoff 1 4).wellFormed = true ∧ (Instr.sendon 4 1).wellFormed = true ∧
      (Instr.swoff 4 4).wellFormed = true ∧ (Instr.swon 1 1).wellFormed = true := by decide

/-! ### Decoding, words written out from 30_encoding.md R60, R62 and section 3.6 -/

theorem test_decode_init : decodeTableWord 16 0b0001000000000000 = some .init := by decide
theorem test_decode_sendoff : decodeTableWord 16 0b0010000000100011 = some (.sendoff 2 3) := by decide
theorem test_decode_sendon : decodeTableWord 16 0b0011000001000100 = some (.sendon 4 4) := by decide
theorem test_decode_swoff : decodeTableWord 16 0b0100000001000100 = some (.swoff 4 4) := by decide
theorem test_decode_swon : decodeTableWord 16 0b0101000000110010 = some (.swon 3 2) := by decide

theorem test_decode_rejects :
    decodeTableWord 16 0x0011 = none ∧ decodeTableWord 16 0x6011 = none ∧ decodeTableWord 16 0xFFFF = none ∧
      decodeTableWord 16 0x1001 = none ∧ decodeTableWord 16 0x1800 = none ∧ decodeTableWord 16 0x2111 = none ∧
      decodeTableWord 16 0x4F11 = none := by decide

/-- Section 3.6, the last three rows of illegal words. -/
theorem test_decodeCmd_illegal_operands :
    decodeCmd 0x3051 = .illegal ∧ decodeCmd 0x40F1 = .illegal ∧ decodeCmd 0x3015 = .illegal ∧
      decodeCmd 0x401F = .illegal ∧ decodeCmd 0x30FF = .illegal := by decide

theorem test_encode : encode (.sendon 4 4) = 0x3044 ∧ encode (.swoff 2 3) = 0x4023 := by decide

/-! ### One step (sections 3.5 to 3.8) -/

/-- The registers after one step. -/
def regsAfter (s : State) : Option Regs :=
  match step s with
  | .next t => some t.regs
  | _ => none

theorem test_init_at_reset :
    regsAfter (State.reset.withFetchWord 16 0x1000) =
      some { Regs.reset with now := 1, pinOe := true, done := true } := by decide

theorem test_init_inaccessible_keeps_pinOe :
    regsAfter (holding (syn 450) (ready 5) (word 0x1000 false)) =
      some { ready 6 with done := true, resp := .hwUnavailable } := by decide

theorem test_sendon_starts :
    regsAfter (holding (syn 450) (ready 7) (word 0x3011 true)) =
      some { ready 8 with
        tgt := 457, phase := .pre, cnt := 25, shreg := 0x333301020304#48, bitcnt := 48, selOn := true
        pinWr := true } := by decide

theorem test_swoff_starts :
    regsAfter (holding (syn 450) (ready 7) (word 0x4023 true)) =
      some { ready 8 with
        tgt := 457, phase := .pre, cnt := 25, shreg := 0x5333070E151C#48, bitcnt := 48, rep := 4, selG := 1, selB := 2
        pinWr := true } := by decide

/-- Section 3.7, row 2: the selection is checked first (R175). -/
theorem test_swon_bad_group_before_init :
    regsAfter (holding (syn 450) Regs.reset (word 0x5001 false)) =
      some { Regs.reset with now := 1, done := true, resp := .invalidArgument } := by decide

/-- Section 3.7, row 3. -/
theorem test_swon_before_init :
    regsAfter (holding (syn 450) Regs.reset (word 0x5011 true)) =
      some { Regs.reset with now := 1, done := true, resp := .hwUnavailable } := by decide

theorem test_sendoff_first_after_reset :
    regsAfter (State.reset.withFetchWord 16 0x2011) =
      some { Regs.reset with now := 1, done := true, resp := .hwUnavailable } := by decide

theorem test_pre_last_slot :
    regsAfter (holding (syn 450) (dueIn .pre 11701) (word 0 true)) =
      some { dueIn .sync 11702 with tgt := 12151, pinLvl := true, pinWr := true } := by decide

theorem test_sync_first_bit_1 :
    regsAfter (holding (syn 450) { dueIn .sync 12151 with shreg := 0x333333353335#48 } (word 0 true)) =
      some { dueIn .pay 12152 with tgt := 12601, shreg := 0x333333353335#48, run := 2, pinWr := true } := by decide

theorem test_pay_next_bit_0 :
    regsAfter (holding (syn 450) { dueIn .pay 13501 with bitcnt := 48, shreg := 0x333333353335#48 } (word 0 true)) =
      some { dueIn .pay 13502 with
        tgt := 13951, shreg := 0x1999999A999A#48, bitcnt := 47, tog := true, pinLvl := true, pinWr := true } := by decide

theorem test_pay_next_bit_1 :
    regsAfter (holding (syn 450)
        { dueIn .pay 13951 with tog := true, bitcnt := 47, shreg := 0x1999999A999A#48 } (word 0 true)) =
      some { dueIn .pay 13952 with
        tgt := 14401, shreg := 0x0CCCCCCD4CCD#48, bitcnt := 46, run := 2, pinWr := true } := by decide

theorem test_pay_last_bit :
    regsAfter (holding (syn 450) { dueIn .pay 100 with tog := true, bitcnt := 1 } (word 0 true)) =
      some { dueIn .post 101 with tgt := 550, cnt := 1, pinWr := true } := by decide

theorem test_post_completes :
    regsAfter (holding (syn 450) (dueIn .post 100) (word 0 false)) =
      some { dueIn .idle 101 with tgt := 100, done := true } := by decide

theorem test_post_next_frame :
    regsAfter (holding (syn 450) { dueIn .post 56251 with rep := 4, selOn := true } (word 0 true)) =
      some { dueIn .pre 56252 with
        tgt := 56701, cnt := 25, rep := 3, shreg := 0x333301020304#48, bitcnt := 48, selOn := true
        pinWr := true } := by decide

/-- Section 4, P3: the end of frame 2 with `gpio_ok = 0`. -/
theorem test_post_cut_short :
    regsAfter (holding (syn 1) { dueIn .post 250 with rep := 3, selG := 3, selB := 3 } (word 0x3011 false)) =
      some { ready 251 with
        tgt := 250, selG := 3, selB := 3, done := true, resp := .hwUnavailable } := by decide

/-- Section 3.8, row 1. -/
theorem test_reset_wins :
    regsAfter (holding (syn 450)
        { dueIn .pay 5000 with pinLvl := true, rep := 3, resp := .hwUnavailable } ⟨true, true, 0x1000, true⟩) =
      some Regs.reset := by decide

/-- Section 3.5, `due`. -/
theorem test_due :
    due 450 451 = false ∧ due 451 451 = true ∧ due 0xFFFFFFFF 0xC2 = false ∧ due 0xC3 0xC2 = true ∧
      due 0x80000000 0 = false := by decide

/-! ### Pure functions (sections 3.1 to 3.5) -/

theorem test_toBits :
    toBits 6 3 = .ok (digits 0b011 3) ∧ toBits 0x1FF 8 = .ok (digits 0b11111111 8) ∧
      toBits 0x5333 16 = .ok (digits 0b1100110011001010 16) ∧ toBits 7 0 = .error .invalidArgument ∧
      toBits 7 33 = .error .invalidArgument := by decide

theorem test_encodeBits :
    encodeBits [true, true] = digits 0b000111 6 ∧ encodeBits [false, true, false] = digits 0b01110 5 ∧
      encodeBits (digits 0b1100110011001010 16) = digits 0b00011101000111010001110100010001 32 := by decide

theorem test_frame : frame [false, true, false] = digits 0b10111000 34 := by decide

theorem test_commandBits :
    commandBits (syn 1) 1 2 true = .ok (digits 0b100100000110000000100000010000011100110011001100 48) := by decide

/-- Section 3.4, T-SYN, (3,4,off): the whole frame. -/
theorem test_frame_of_command :
    (commandBits (syn 1) 3 4 false).map frame = .ok (digits
      0b00000000000000000000000000100010100011101010001011101010111000101010001110101110001110100011101000111010001000100
      113) := by decide

theorem test_schedule :
    schedule [false, true, true] 10 450 = [(10, false), (460, true), (910, true)] ∧
      scheduleEnd [false, true, true] 10 450 = 1360 := by decide

theorem test_schedule_wraps :
    wrapTimes (schedule [true, false] 0xFFFFFFFF 2) = [(0xFFFFFFFF, true), (1, false)] := by decide

/-! ### Witnesses: for every statement with hypotheses, states and operands that meet them all, clause by clause -/

/-- Levels at an edge that presents nothing. -/
def nothing (gpioOk : Bool) : Inputs := ⟨false, false, 0, gpioOk⟩

theorem witness_DecodeOfEncodeIsTheCommand :
    (Instr.sendon 4 1).wellFormed = true ∧ (Instr.swoff 1 4).wellFormed = true := by decide

theorem witness_OnlyTheEncodingDecodesToACommand :
    decode 0x1000 = .ok .init ∧ decode 0x2F00 = .error .reservedBits ∧ decode 0x20F0 = .ok (.sendoff 15 0) := by decide

theorem witness_StepRunsTheDecodedCommand :
    (holding (syn 450) Regs.reset (word 0x1000 true)).presents 0x1000 ∧ decode 0x1000 = .ok .init ∧
      (holding (syn 450) (ready 5) (word 0x5032 false)).presents 0x5032 ∧ decode 0x5032 = .ok (.swon 3 2) := by
  simp only [State.presents]; decide

theorem witness_IllegalWordAnswersInvalidArgument :
    (holding (syn 450) (ready 5) (word 0x6011 true)).presents 0x6011 ∧ decodeCmd 0x6011 = .illegal ∧
      (holding (syn 450) (ready 5) (word 0x5051 false)).presents 0x5051 ∧ decodeCmd 0x5051 = .illegal := by
  simp only [State.presents]; decide

theorem witness_ResetEdgeResetsEveryRegister :
    (holding (syn 450) (dueIn .pay 5000) ⟨true, true, 0x1000, true⟩).inp.rst = true := rfl

/-- Accessible, and not. -/
theorem witness_InitPutsThePinInOutputModeOrIsRefused :
    ((holding (syn 450) Regs.reset (word 0x1000 true)).presents 0x1000 ∧ (word 0x1000 true).gpioOk = true) ∧
      (holding (syn 450) (ready 5) (word 0x1000 false)).presents 0x1000 ∧ (word 0x1000 false).gpioOk = false := by
  simp only [State.presents]; decide

/-- SENDOFF at the lowest selection, SENDON at the highest. -/
theorem witness_SendStartsOneFrame :
    ((1#4).toNat = (0 : Fin 4).val + 1 ∧ (4#4).toNat = (3 : Fin 4).val + 1) ∧
      (ready 7).pinOe = true ∧ (word 0x2011 true).gpioOk = true ∧ (word 0x3044 true).gpioOk = true ∧
      (holding (syn 450) (ready 7) (word 0x2011 true)).presents (encode (.sendoff 1 1)) ∧
      (holding (syn 450) (ready 7) (word 0x3044 true)).presents (encode (.sendon 4 4)) := by
  simp only [State.presents]; decide

/-- SWOFF at the highest group and the lowest button, SWON the other way round. -/
theorem witness_SwitchStartsTheFirstOfFiveFrames :
    ((1#4).toNat = (0 : Fin 4).val + 1 ∧ (4#4).toNat = (3 : Fin 4).val + 1) ∧
      (ready 7).pinOe = true ∧ (word 0x4041 true).gpioOk = true ∧ (word 0x5014 true).gpioOk = true ∧
      (holding (syn 450) (ready 7) (word 0x4041 true)).presents (encode (.swoff 4 1)) ∧
      (holding (syn 450) (ready 7) (word 0x5014 true)).presents (encode (.swon 1 4)) := by
  simp only [State.presents]; decide

/-- Not initialised; initialised and not accessible. -/
theorem witness_UnavailablePinRefusesALegalTransmission :
    ((holding (syn 450) Regs.reset (word 0x3011 true)).presents (encode (.sendon 1 1)) ∧
        Instr.sendon 1 1 ≠ .init ∧ (Instr.sendon 1 1).wellFormed = true ∧ Regs.reset.pinOe = false) ∧
      (holding (syn 450) (ready 5) (word 0x4044 false)).presents (encode (.swoff 4 4)) ∧
        Instr.swoff 4 4 ≠ .init ∧ (Instr.swoff 4 4).wellFormed = true ∧ (word 0x4044 false).gpioOk = false := by
  simp only [State.presents]; decide

/-- Group 0 and 5, button 0 and 15. -/
theorem witness_BadSelectionAnswersInvalidArgumentFirst :
    ((holding (syn 450) (ready 5) (word 0x2001 true)).presents (encode (.sendoff 0 1)) ∧
        (Instr.sendoff 0 1).wellFormed = false) ∧
      ((holding (syn 450) (ready 5) (word 0x3051 true)).presents (encode (.sendon 5 1)) ∧
        (Instr.sendon 5 1).wellFormed = false) ∧
      ((holding (syn 450) Regs.reset (word 0x4010 false)).presents (encode (.swoff 1 0)) ∧
        (Instr.swoff 1 0).wellFormed = false) ∧
      (holding (syn 450) (ready 5) (word 0x501F true)).presents (encode (.swon 1 15)) ∧
        (Instr.swon 1 15).wellFormed = false := by
  simp only [State.presents]; decide

/-- `CNT` at 25 and at 0. -/
theorem witness_AdvanceInThePreamble :
    (word 0 true).rst = false ∧ (dueIn .pre 451).phase = .pre ∧
      ((dueIn .pre 451).now - (dueIn .pre 451).tgt).toNat < 2 ^ 31 ∧
      ({ dueIn .pre 451 with cnt := 25 } : Regs).cnt.val = (24 : Fin 26).val + 1 ∧ (dueIn .pre 451).cnt = 0 := by decide

theorem witness_AdvanceFromTheSyncSlot :
    (word 0 true).rst = false ∧ (dueIn .sync 100).phase = .sync ∧
      ((dueIn .sync 100).now - (dueIn .sync 100).tgt).toNat < 2 ^ 31 := by decide

/-- `RUN` at 2; `RUN = 0` with `BITCNT` at 48, at 2, at 0 and at 1. -/
theorem witness_AdvanceInThePayload :
    (word 0 true).rst = false ∧ (dueIn .pay 100).phase = .pay ∧
      ((dueIn .pay 100).now - (dueIn .pay 100).tgt).toNat < 2 ^ 31 ∧
      ({ dueIn .pay 100 with run := 2, bitcnt := 48 } : Regs).run.val = (1 : Fin 3).val + 1 ∧
      ((dueIn .pay 100).run = 0 ∧ ({ dueIn .pay 100 with bitcnt := 48 } : Regs).bitcnt.val = (47 : Fin 49).val + 1 ∧
        1 ≤ (47 : Fin 49).val) ∧
      (({ dueIn .pay 100 with bitcnt := 2 } : Regs).bitcnt.val = (1 : Fin 49).val + 1 ∧ 1 ≤ (1 : Fin 49).val) ∧
      (dueIn .pay 100).bitcnt = 0 ∧ ({ dueIn .pay 100 with bitcnt := 1 } : Regs).bitcnt = 1 := by decide

/-- `CNT` at 1; `CNT = 0` with `REP = 0`, with `REP = 4` inaccessible, with `REP` at 4 and at 1 accessible. -/
theorem witness_AdvanceInThePostambleAndEndOfFrame :
    (word 0 true).rst = false ∧ (dueIn .post 100).phase = .post ∧
      ((dueIn .post 100).now - (dueIn .post 100).tgt).toNat < 2 ^ 31 ∧
      ({ dueIn .post 100 with cnt := 1 } : Regs).cnt.val = (0 : Fin 26).val + 1 ∧
      ((dueIn .post 100).cnt = 0 ∧ (dueIn .post 100).rep = 0) ∧
      (({ dueIn .post 100 with rep := 4 } : Regs).rep ≠ 0 ∧ (word 0 false).gpioOk = false) ∧
      ({ dueIn .post 100 with rep := 4 } : Regs).rep.val = (3 : Fin 5).val + 1 ∧
      ({ dueIn .post 100 with rep := 1 } : Regs).rep.val = (0 : Fin 5).val + 1 ∧ (word 0 true).gpioOk = true := by decide

/-- One tick before the target, and idle. -/
theorem witness_WaitAndIdleEdgesOnlyCount :
    (word 0 true).rst = false ∧
      (({ dueIn .pre 451 with now := 450 } : Regs).phase ≠ .idle ∧
        2 ^ 31 ≤ (({ dueIn .pre 451 with now := 450 } : Regs).now - (dueIn .pre 451).tgt).toNat) ∧
      (ready 5).phase = .idle ∧ (nothing true).cmdValid = false := by decide

/-- Both ends of the range, on both sides. -/
theorem witness_DueIsTheOrderOfUnboundedTimes :
    (0 + (2 ^ 31 - 1) ≤ 0 + (2 ^ 31 - 1) ∧ 0 ≤ (0 + (2 ^ 31 - 1)) + (2 ^ 31 - 1)) ∧
      2 ^ 33 ≤ (2 ^ 33 + (2 ^ 31 - 1)) + (2 ^ 31 - 1) ∧ 2 ^ 33 + (2 ^ 31 - 1) ≤ 2 ^ 33 + (2 ^ 31 - 1) := by decide

/-! States that meet the invariants. -/

/-- In PRE, one slot after the start of a frame at time 1 with `P = 450`. -/
def inPre (now : Word) (i : Inputs) : State :=
  holding (syn 450)
    { ready now with
      tgt := 451, phase := .pre, cnt := 25, shreg := 0x333301020304#48, bitcnt := 48, selOn := true } i

theorem inPre_inv_wait (i : Inputs) : (inPre 2 i).Inv :=
  ⟨syn_wf_450, by simp [inPre, holding, ready], by simp [inPre, holding], by simp [inPre, holding, ready, Regs.reset],
    by simp [inPre, holding], by simp [inPre, holding], by simp [inPre, holding],
    by simp [inPre, holding, ready, Regs.reset], by simp [inPre, holding],
    fun _ => show (451#32 - 2#32).toNat ≤ 450 - 1 by decide⟩

theorem inPre_inv_due (i : Inputs) : (inPre 451 i).Inv :=
  ⟨syn_wf_450, by simp [inPre, holding, ready], by simp [inPre, holding], by simp [inPre, holding, ready, Regs.reset],
    by simp [inPre, holding], by simp [inPre, holding], by simp [inPre, holding],
    by simp [inPre, holding, ready, Regs.reset], by simp [inPre, holding],
    fun _ => show (451#32 - 451#32).toNat ≤ 450 - 1 by decide⟩

/-- At the last due edge of a frame with `rep` frames to come. -/
def atEnd (rep : Fin 5) (i : Inputs) : State := holding (syn 450) { dueIn .post 1000 with rep := rep } i

theorem atEnd_inv (rep : Fin 5) (i : Inputs) : (atEnd rep i).Inv :=
  ⟨syn_wf_450, by simp [atEnd, holding, dueIn, ready], by simp [atEnd, holding, dueIn],
    by simp [atEnd, holding, dueIn], by simp [atEnd, holding, dueIn], by simp [atEnd, holding, dueIn],
    by simp [atEnd, holding, dueIn, ready, Regs.reset], by simp [atEnd, holding, dueIn, ready, Regs.reset],
    by simp [atEnd, holding, dueIn], fun _ => show (1000#32 - 1000#32).toNat ≤ 450 - 1 by decide⟩

/-- Idle with the pin initialised, in an instance with `P = 1`, and the host's levels given. -/
def idleAt (now : Word) (i : Inputs) (later : List Inputs) : State := ⟨syn 1, ready now, i, later⟩

theorem idleAt_inv (now : Word) (i : Inputs) (later : List Inputs) : (idleAt now i later).Inv :=
  ⟨syn_wf_1, by simp [idleAt, ready], by simp [idleAt, ready, Regs.reset], by simp [idleAt, ready, Regs.reset],
    by simp [idleAt, ready, Regs.reset], by simp [idleAt, ready, Regs.reset], by simp [idleAt, ready, Regs.reset],
    by simp [idleAt, ready, Regs.reset], by simp [idleAt, ready, Regs.reset], by simp [idleAt, ready, Regs.reset]⟩

/-- At the target, and before it. -/
theorem witness_TransmissionIsDueExactlyAtItsTarget :
    ((inPre 451 (word 0 true)).Inv ∧ (inPre 451 (word 0 true)).regs.phase ≠ .idle ∧
        (inPre 451 (word 0 true)).regs.now = (inPre 451 (word 0 true)).regs.tgt) ∧
      (inPre 2 (word 0 true)).Inv ∧ (inPre 2 (word 0 true)).regs.phase ≠ .idle ∧
        due (inPre 2 (word 0 true)).regs.now (inPre 2 (word 0 true)).regs.tgt = false :=
  ⟨⟨inPre_inv_due _, by decide, by decide⟩, inPre_inv_wait _, by decide, by decide⟩

/-- With and without a reset, the counter at its greatest value. -/
theorem witness_NowCountsEveryEdge :
    (∃ s t : State, step s = .next t ∧ s.inp.rst = false ∧ s.regs.now = 0xFFFFFFFF) ∧
      ∃ s t : State, step s = .next t ∧ s.inp.rst = true :=
  ⟨⟨holding (syn 450) (ready 0xFFFFFFFF) (word 0 true), _, step_eq _, rfl, rfl⟩,
    holding (syn 450) (ready 5) ⟨true, true, 0x1000, true⟩, _, step_eq _, rfl⟩

/-- An edge with a pin write, and one without. -/
theorem witness_PinWriteSetsTheTargetOnePulseAhead :
    (∃ s t : State, s.Inv ∧ s.inp.rst = false ∧ step s = .next t ∧ t.regs.pinWr = true) ∧
      ∃ s t : State, s.Inv ∧ s.inp.rst = false ∧ step s = .next t ∧ t.regs.pinWr = false :=
  ⟨⟨_, _, inPre_inv_due (word 0 true), rfl, step_eq _, by decide⟩,
    _, _, inPre_inv_wait (word 0 true), rfl, step_eq _, by decide⟩

theorem witness_EveryStepKeepsTheInvariants : ∃ s t : State, s.Inv ∧ step s = .next t :=
  ⟨_, _, inPre_inv_due (word 0 true), step_eq _⟩

/-- A successful INIT, and a reset. -/
theorem witness_OnlyInitSetsAndOnlyResetClearsPinOe :
    (∃ s t : State, step s = .next t ∧ s.regs.pinOe = false ∧ t.regs.pinOe = true) ∧
      ∃ s t : State, step s = .next t ∧ s.regs.pinOe = true ∧ t.regs.pinOe = false :=
  ⟨⟨holding (syn 450) Regs.reset (word 0x1000 true), _, step_eq _, by decide, by decide⟩,
    holding (syn 450) (ready 5) ⟨true, false, 0, true⟩, _, step_eq _, by decide, by decide⟩

theorem witness_PinLevelHoldsBetweenWrites :
    ∃ s t : State, s.inp.rst = false ∧ step s = .next t ∧ t.regs.pinWr = false ∧ s.regs.pinLvl = true :=
  ⟨holding (syn 450) { dueIn .sync 451 with now := 3, pinLvl := true } (word 0 true), _, rfl, step_eq _,
    by decide, by decide⟩

/-- An edge that completes a command, and one that completes none. -/
theorem witness_DoneMarksCompletionAndRespHoldsOtherwise :
    (∃ s t : State, s.inp.rst = false ∧ step s = .next t ∧ t.regs.done = true) ∧
      ∃ s t : State, s.inp.rst = false ∧ step s = .next t ∧ t.regs.done = false :=
  ⟨⟨atEnd 0 (word 0 true), _, rfl, step_eq _, by decide⟩, inPre 2 (word 0 true), _, rfl, step_eq _, by decide⟩

theorem witness_SelectionIsLatchedOnlyAtAStart :
    ∃ s t : State, s.inp.rst = false ∧ step s = .next t ∧
      ¬(t.regs.selG = s.regs.selG ∧ t.regs.selB = s.regs.selB ∧ t.regs.selOn = s.regs.selOn) :=
  ⟨holding (syn 450) (ready 7) (word 0x4023 true), _, rfl, step_eq _, by decide⟩

/-- Two hosts, one presenting a command and calling the pin inaccessible. -/
theorem witness_HostCannotInfluenceAFrameInFlight :
    (inPre 451 (word 0 true)).cfg = (inPre 451 (word 0x1000 false)).cfg ∧
      (inPre 451 (word 0 true)).regs = (inPre 451 (word 0x1000 false)).regs ∧
      (inPre 451 (word 0 true)).inp.rst = false ∧ (inPre 451 (word 0x1000 false)).inp.rst = false ∧
      (inPre 451 (word 0 true)).regs.phase ≠ .idle ∧
      ¬((inPre 451 (word 0 true)).regs.phase = .post ∧ (inPre 451 (word 0 true)).regs.cnt = 0 ∧
        (inPre 451 (word 0 true)).regs.rep ≠ 0 ∧
        due (inPre 451 (word 0 true)).regs.now (inPre 451 (word 0 true)).regs.tgt = true) :=
  ⟨rfl, rfl, rfl, rfl, by decide, by decide⟩

theorem witness_ToBitsGivesTheNumberBackModuloItsWidth : 1 ≤ 1 ∧ 1 ≤ 32 ∧ 32 ≤ 32 := by decide

theorem witness_ToBitsRejectsWidthsAndDropsHighBits : ((0 : Int) < 1 ∨ (32 : Int) < 0) ∧ ((33 : Int) < 1 ∨ (32 : Int) < 33) := by
  decide

/-- Equal encodings are those of equal sequences; an odd and an even first part. -/
theorem witness_EncodeIsInjectiveAndSplits :
    encodeBits [true, false] = encodeBits [true, false] ∧ [true].length % 2 ≠ 0 ∧ [true, false].length % 2 = 0 := by decide

theorem witness_EncodedLevelsStartLowAndEndByParity : [true] ≠ ([] : List Bit) ∧ [true, false] ≠ ([] : List Bit) := by decide

theorem witness_FramesHaveTheSeamsOfR113 :
    [true].length = [true].length ∧ frame [true] = frame [true] ∧ (frame []).length = 29 ∧ 25 < 26 := by decide

theorem witness_CommandBitsRejectsABadSelection :
    ((0 : Int) < 1 ∨ (4 : Int) < 0) ∧ (4 : Int) < 5 := by decide

theorem witness_FrameLengthFromTheChannelCode :
    commandBits (syn 1) ((0 : Fin 4).val + 1) ((0 : Fin 4).val + 1) true =
      .ok (digits 0b001000001100000001000000100000001100110011001100 48) := by decide

theorem witness_ThirtyTwoCommandsHaveDistinctFrames :
    (syn 450).wf ∧ ∃ bits, commandBits (syn 450) ((3 : Fin 4).val + 1) ((3 : Fin 4).val + 1) false = .ok bits ∧
      frame bits = frame bits :=
  ⟨syn_wf_450, _, commandBits_eq _ 3 3 false, rfl⟩

theorem witness_ScheduleTimesEachLevelOnce : [false, true][0]? = some false ∧ [false, true][1]? = some true := by decide

/-- The payload of (1,1,on) with T-SYN (section 3.4). -/
def bits11 : List Bit := digits 0b001000001100000001000000100000001100110011001100 48

/-- A frame started by a command, and one started at the end of the frame before. -/
theorem witness_FrameWritesItsSchedule :
    (∃ s t : State, s.Inv ∧ step s = .next t ∧ t.regs.phase = .pre ∧ t.regs.cnt = 25 ∧ t.regs.pinWr = true ∧
        commandBits s.cfg (t.regs.selG.val + 1) (t.regs.selB.val + 1) t.regs.selOn = .ok bits11 ∧
        s.noReset ((frame bits11).length * s.cfg.pulseTicks)) ∧
      ∃ (s t : State) (bits : List Bit), s.Inv ∧ step s = .next t ∧ t.regs.phase = .pre ∧ t.regs.cnt = 25 ∧
        t.regs.pinWr = true ∧ commandBits s.cfg (t.regs.selG.val + 1) (t.regs.selB.val + 1) t.regs.selOn = .ok bits ∧
        s.noReset ((frame bits).length * s.cfg.pulseTicks) :=
  ⟨⟨_, _, idleAt_inv 7 (word 0x3011 true) [], step_eq _, by decide, by decide, by decide, by decide,
      noReset_of_later_nil rfl rfl _⟩,
    _, _, _, atEnd_inv 4 (word 0 true), step_eq _, by decide, by decide, by decide, commandBits_eq _ _ _ _,
    noReset_of_later_nil rfl rfl _⟩

theorem witness_SendTransmitsOneFrameAndCompletes :
    (idleAt 7 (word 0x3011 true) []).Inv ∧ (idleAt 7 (word 0x3011 true) []).regs.pinOe = true ∧
      (1#4).toNat = (0 : Fin 4).val + 1 ∧
      (idleAt 7 (word 0x3011 true) []).presents (encode (if true = true then .sendon 1 1 else .sendoff 1 1)) ∧
      commandBits (idleAt 7 (word 0x3011 true) []).cfg (1#4).toNat (1#4).toNat true = .ok bits11 ∧
      103 = (frame bits11).length ∧ (idleAt 7 (word 0x3011 true) []).inp.gpioOk = true ∧
      (idleAt 7 (word 0x3011 true) []).noReset (103 * (idleAt 7 (word 0x3011 true) []).cfg.pulseTicks + 1) :=
  ⟨idleAt_inv _ _ _, rfl, by decide, by simp only [State.presents]; decide, by decide, by decide, rfl,
    noReset_of_later_nil rfl rfl _⟩

theorem witness_SwitchTransmitsFiveFramesAndCompletes :
    (idleAt 7 (word 0x5011 true) []).Inv ∧ (idleAt 7 (word 0x5011 true) []).regs.pinOe = true ∧
      (1#4).toNat = (0 : Fin 4).val + 1 ∧
      (idleAt 7 (word 0x5011 true) []).presents (encode (if true = true then .swon 1 1 else .swoff 1 1)) ∧
      commandBits (idleAt 7 (word 0x5011 true) []).cfg (1#4).toNat (1#4).toNat true = .ok bits11 ∧
      103 = (frame bits11).length ∧
      (∀ j, j < 5 → ((idleAt 7 (word 0x5011 true) []).inputAt
        (j * (103 * (idleAt 7 (word 0x5011 true) []).cfg.pulseTicks))).gpioOk = true) ∧
      (idleAt 7 (word 0x5011 true) []).noReset
        (5 * (103 * (idleAt 7 (word 0x5011 true) []).cfg.pulseTicks) + 1) :=
  ⟨idleAt_inv _ _ _, rfl, by decide, by simp only [State.presents]; decide, by decide, by decide,
    fun _ _ => by rw [inputAt_of_later_nil rfl]; rfl, noReset_of_later_nil rfl rfl _⟩

/-- The pin subsystem goes away right after the start: the command stops at the end of frame 1. -/
def stopsAfter1 : State := idleAt 7 (word 0x5011 true) [nothing false]

theorem stopsAfter1_inputAt (k : Nat) : stopsAfter1.inputAt (k + 1) = nothing false := by
  rw [inputAt_succ, inputAt_of_later_nil rfl]; rfl

theorem witness_SwitchStopsAtAFrameBoundary :
    stopsAfter1.Inv ∧ stopsAfter1.regs.pinOe = true ∧ (1#4).toNat = (0 : Fin 4).val + 1 ∧
      stopsAfter1.presents (encode (if true = true then .swon 1 1 else .swoff 1 1)) ∧
      commandBits stopsAfter1.cfg (1#4).toNat (1#4).toNat true = .ok bits11 ∧ 103 = (frame bits11).length ∧
      1 ≤ 1 ∧ 1 ≤ 4 ∧
      (∀ j, j < 1 → (stopsAfter1.inputAt (j * (103 * stopsAfter1.cfg.pulseTicks))).gpioOk = true) ∧
      (stopsAfter1.inputAt (1 * (103 * stopsAfter1.cfg.pulseTicks))).gpioOk = false ∧
      stopsAfter1.noReset (1 * (103 * stopsAfter1.cfg.pulseTicks) + 1) := by
  refine ⟨idleAt_inv _ _ _, rfl, by decide, by simp only [State.presents]; decide, by decide, by decide, le_refl 1,
    by decide, ?_, ?_, ?_⟩
  · intro j hj
    obtain rfl : j = 0 := by omega
    rfl
  · exact congrArg Inputs.gpioOk (stopsAfter1_inputAt 102)
  · intro j _
    cases j with
    | zero => rfl
    | succ j => rw [stopsAfter1_inputAt]; rfl

/-- The pin subsystem goes away at the edge that ends frame 4 and not before: the boundary `m = 4`. -/
def stopsAfter4 : State :=
  idleAt 7 (word 0x5011 true) (List.replicate 411 (nothing true) ++ [nothing false])

/-- Levels held for a number of edges and then changed for good. -/
theorem inputAt_of_later_replicate {s : State} {a : Nat} {x y : Inputs} (h : s.later = List.replicate a x ++ [y])
    (k : Nat) : s.inputAt (k + 1) = if k < a then x else y := by
  induction a generalizing s k with
  | zero =>
    rw [inputAt_succ, inputAt_of_later_nil (by simp [h])]
    simp [State.nextInputs, h]
  | succ a ih =>
    rw [inputAt_succ]
    cases k with
    | zero => simp [State.nextInputs, h, List.replicate_succ]
    | succ k =>
      rw [ih (by simp [h, List.replicate_succ])]
      simp

theorem stopsAfter4_inputAt (k : Nat) :
    stopsAfter4.inputAt (k + 1) = if k < 411 then nothing true else nothing false :=
  inputAt_of_later_replicate rfl k

theorem witness_SwitchStopsAtAFrameBoundary_4 :
    stopsAfter4.Inv ∧ stopsAfter4.presents (encode (.swon 1 1)) ∧
      (∀ j, j < 4 → (stopsAfter4.inputAt (j * (103 * stopsAfter4.cfg.pulseTicks))).gpioOk = true) ∧
      (stopsAfter4.inputAt (4 * (103 * stopsAfter4.cfg.pulseTicks))).gpioOk = false ∧
      stopsAfter4.noReset (4 * (103 * stopsAfter4.cfg.pulseTicks) + 1) := by
  refine ⟨idleAt_inv _ _ _, by simp only [State.presents]; decide, ?_, ?_, ?_⟩
  · intro j hj
    have : j = 0 ∨ j = 1 ∨ j = 2 ∨ j = 3 := by omega
    rcases this with rfl | rfl | rfl | rfl
    · rfl
    · exact congrArg Inputs.gpioOk (stopsAfter4_inputAt 102)
    · exact congrArg Inputs.gpioOk (stopsAfter4_inputAt 205)
    · exact congrArg Inputs.gpioOk (stopsAfter4_inputAt 308)
  · exact congrArg Inputs.gpioOk (stopsAfter4_inputAt 411)
  · intro j _
    cases j with
    | zero => rfl
    | succ j =>
      rw [stopsAfter4_inputAt]
      split <;> rfl

theorem witness_EveryTransmissionEndsWithOneResponse :
    (inPre 2 (nothing true)).Inv ∧ (inPre 2 (nothing true)).regs.phase ≠ .idle ∧
      (inPre 2 (nothing true)).noReset (801 * (inPre 2 (nothing true)).cfg.pulseTicks) :=
  ⟨inPre_inv_wait _, by decide, noReset_of_later_nil rfl rfl _⟩

end Sys2Proof.Tests
end

section
/-! Injectivity of the pure functions, from the bits of a number to the frame of a command (40_bit_encoder.md R93,
41_waveform_encoder.md R103 item 4, 42_packet_framer.md R113 item 5, 43_command_table.md R124). -/

namespace Sys2Proof.Machine

open Sys2Proof

/-! ### Bits of a number -/

/-- The round trip of `toBits` and `fromBits` (40_bit_encoder.md R93). -/
theorem fromBits_lsbFirst (v w : Nat) : fromBits (lsbFirst v w) = v % 2 ^ w := by
  induction w generalizing v with
  | zero => simp [fromBits, Nat.mod_one]
  | succ w ih =>
    have hbit : (if decide (v % 2 = 1) = true then 1 else 0) = v % 2 := by
      rcases Nat.mod_two_eq_zero_or_one v with h | h <;> simp [h]
    rw [lsbFirst_succ, fromBits, ih, hbit, Nat.pow_succ', Nat.mod_mul]

/-- A word is told by its bits. -/
theorem lsbFirst_toNat_inj {w : Nat} {x y : BitVec w} : lsbFirst x.toNat w = lsbFirst y.toNat w ↔ x = y := by
  refine ⟨fun h => BitVec.eq_of_toNat_eq ?_, fun h => by rw [h]⟩
  have hmod := congrArg fromBits h
  rwa [fromBits_lsbFirst, fromBits_lsbFirst, Nat.mod_eq_of_lt x.isLt, Nat.mod_eq_of_lt y.isLt] at hmod

/-! ### Encoded sequences and frames -/

/-- An encoded sequence never begins with the level opposite to its toggling state. -/
theorem encodeFrom_ne_not_cons (state : Level) (bits : List Bit) (rest : List Level) :
    encodeFrom state bits ≠ (!state) :: rest := by
  cases bits with
  | nil => simp
  | cons b bs => simp [encodeFrom_cons, bitRun_eq]

/-- The first run of an encoded sequence tells its bit: the level after a one-slot run is never that run's own. -/
theorem head_eq_of_encodeFrom_cons_eq {state : Level} {a b : Bit} {as bs : List Bit}
    (h : encodeFrom state (a :: as) = encodeFrom state (b :: bs)) : a = b := by
  have hne (xs : List Bit) (rest : List Level) : encodeFrom (!state) xs ≠ state :: rest := by
    simpa using encodeFrom_ne_not_cons (!state) xs rest
  rw [encodeFrom_cons, encodeFrom_cons, bitRun_eq, bitRun_eq, List.cons_append, List.cons_append,
    List.cons.injEq] at h
  obtain ⟨-, hrest⟩ := h
  match a, b with
  | false, false => rfl
  | true, true => rfl
  | false, true => exact absurd hrest (hne as _)
  | true, false => exact absurd hrest.symm (hne bs _)

/-- Encoding is injective from either toggling state (41_waveform_encoder.md R103 item 4). -/
theorem encodeFrom_injective (state : Level) : Function.Injective (encodeFrom state) := by
  intro as
  induction as generalizing state with
  | nil =>
    intro bs h
    cases bs with
    | nil => rfl
    | cons b bs => simp [encodeFrom_cons, bitRun_eq] at h
  | cons a as ih =>
    intro bs h
    cases bs with
    | nil => simp [encodeFrom_cons, bitRun_eq] at h
    | cons b bs =>
      obtain rfl := head_eq_of_encodeFrom_cons_eq h
      rw [encodeFrom_cons, encodeFrom_cons, List.append_cancel_left_eq] at h
      rw [ih (!state) h]

/-- Frames tell their payloads apart (42_packet_framer.md R113 item 5). -/
theorem frame_injective : Function.Injective frame := by
  intro as bs h
  rw [frame, frame, List.append_cancel_right_eq, List.append_cancel_left_eq] at h
  exact encodeFrom_injective false h

/-! ### Command Codes -/

/-- The two Action Codes differ (20_memory.md R42). -/
theorem romAct_injective : Function.Injective romAct := by decide

/-- A table of pairwise distinct words tells the selection of each (00_scope.md R6). -/
theorem romCh_inj {c : Config} (hc : c.wf) {gi bi gi' bi' : Fin 4} (h : romCh c gi bi = romCh c gi' bi') :
    gi = gi' ∧ bi = bi' := by
  obtain ⟨-, -, hdistinct⟩ := hc
  exact hdistinct gi bi gi' bi' h

theorem commandCode_action (c : Config) (gi bi : Fin 4) (on : Bool) :
    (commandCode c gi bi on).extractLsb' 32 16 = romAct on := BitVec.extractLsb'_append_eq_left

theorem commandCode_channel (c : Config) (gi bi : Fin 4) (on : Bool) :
    (commandCode c gi bi on).extractLsb' 0 32 = romCh c gi bi := BitVec.extractLsb'_append_eq_right

/-- The 32 legal selections have pairwise different Command Codes (43_command_table.md R124). -/
theorem commandCode_inj {c : Config} (hc : c.wf) {gi bi gi' bi' : Fin 4} {on on' : Bool}
    (h : commandCode c gi bi on = commandCode c gi' bi' on') : gi = gi' ∧ bi = bi' ∧ on = on' := by
  have hact : romAct on = romAct on' := by rw [← commandCode_action c gi bi, h, commandCode_action]
  have hch : romCh c gi bi = romCh c gi' bi' := by
    rw [← commandCode_channel c gi bi on, h, commandCode_channel]
  obtain ⟨hgi, hbi⟩ := romCh_inj hc hch
  exact ⟨hgi, hbi, romAct_injective hact⟩

end Sys2Proof.Machine

open Sys2Proof Sys2Proof.Machine

/-- Settles O45: the frame tells the payload, the payload the Command Code, and the Command Code the selection. -/
theorem thirtyTwoCommandsHaveDistinctFrames : Obligations.ThirtyTwoCommandsHaveDistinctFrames := by
  intro c hc gi bi gi' bi' on on' bits bits' hbits hbits' hframe
  rw [commandBits_eq, Except.ok.injEq] at hbits hbits'
  have hpayload : bits = bits' := frame_injective hframe
  rw [← hbits, ← hbits', lsbFirst_toNat_inj] at hpayload
  exact commandCode_inj hc hpayload

/-- Settles O6, by the form every step has: the registers after it put into `State.after`. -/
theorem everyStepIsNextAndKeepsTheInstance : Obligations.EveryStepIsNextAndKeepsTheInstance := by
  intro s
  exact ⟨s.after (nextRegs s), step_eq s, after_cfg s _, after_inp s _, after_later s _⟩

end

section
/-! The invariants of 10_state.md R34 over one edge, outcome by outcome. -/

namespace Sys2Proof.Machine

open Sys2Proof

/-- Items 3 to 7 of R34: what the registers of the frame hold in a phase. -/
def PhaseInv (r : Regs) : Phase → Prop
  | .idle => r.pinLvl = false ∧ r.rep = 0 ∧ r.bitcnt = 0 ∧ r.shreg = 0 ∧ r.tog = false ∧ r.run = 0 ∧ r.cnt = 0
  | .pre => r.pinLvl = false ∧ r.bitcnt = 48 ∧ r.tog = false ∧ r.run = 0
  | .sync => r.pinLvl = true ∧ r.bitcnt = 48 ∧ r.tog = false ∧ r.run = 0 ∧ r.cnt = 0
  | .pay => r.pinLvl = r.tog ∧ 1 ≤ r.bitcnt.val ∧ r.tog = decide ((48 - r.bitcnt.val) % 2 = 1) ∧
      r.shreg.toNat < 2 ^ r.bitcnt.val ∧ (r.run ≠ 0 → r.shreg.getLsbD 0 = true)
  | .post => r.pinLvl = false ∧ r.bitcnt = 0 ∧ r.shreg = 0 ∧ r.tog = false ∧ r.run = 0 ∧ r.cnt.val ≤ 1

/-! ### What the invariants say of an idle and of a busy block -/

/-- For an idle block the invariants come down to item 3 and to the absence of a pin write. -/
theorem inv_of_idle {t : State} (hc : t.cfg.wf) (hp : t.regs.phase = .idle) (hw : t.regs.pinWr = false)
    (hi : PhaseInv t.regs .idle) : t.Inv where
  cfg := hc
  notOutput _ := ⟨hp, hi.1⟩
  idle _ := hi
  pre h := by simp [hp] at h
  sync h := by simp [hp] at h
  pay h := by simp [hp] at h
  post h := by simp [hp] at h
  done _ := hp
  pinWr h := by simp [hw] at h
  target h := absurd hp h

/-- For a busy block the invariants come down to its phase's own item, the pin's mode, `DONE` and the target. -/
theorem inv_of_busy {t : State} (hc : t.cfg.wf) (hb : t.regs.phase ≠ .idle) (ho : t.regs.pinOe = true)
    (hd : t.regs.done = false) (hi : PhaseInv t.regs t.regs.phase)
    (ht : (t.regs.tgt - t.regs.now).toNat ≤ t.cfg.pulseTicks - 1) : t.Inv where
  cfg := hc
  notOutput h := by simp [ho] at h
  idle h := absurd h hb
  pre h := by rw [h] at hi; exact hi
  sync h := by rw [h] at hi; exact hi
  pay h := by rw [h] at hi; exact hi
  post h := by rw [h] at hi; exact hi
  done h := by simp [hd] at h
  pinWr _ := hb
  target _ := ht

theorem State.Inv.phaseInv {s : State} (hs : s.Inv) : PhaseInv s.regs s.regs.phase := by
  cases hp : s.regs.phase with
  | idle => exact hs.idle hp
  | pre => exact hs.pre hp
  | sync => exact hs.sync hp
  | pay => exact hs.pay hp
  | post => exact hs.post hp

/-- A transmission in flight has the pin in output mode (R34 item 2). -/
theorem State.Inv.pinOe_of_busy {s : State} (hs : s.Inv) (hb : s.regs.phase ≠ .idle) : s.regs.pinOe = true := by
  cases h : s.regs.pinOe with
  | true => rfl
  | false => exact absurd (hs.notOutput h).1 hb

/-- The target of a transmission in flight is ahead by less than `2^31` ticks. -/
theorem State.Inv.target_lt {s : State} (hs : s.Inv) (hb : s.regs.phase ≠ .idle) :
    (s.regs.tgt - s.regs.now).toNat < 2 ^ 31 := by
  obtain ⟨-, hP, -⟩ := hs.cfg
  have := hs.target hb
  omega

/-- A transmission in flight is due exactly at its target (44_pulse_transmitter.md R132). -/
theorem State.Inv.now_eq_tgt {s : State} (hs : s.Inv) (hb : s.regs.phase ≠ .idle)
    (hd : due s.regs.now s.regs.tgt = true) : s.regs.now = s.regs.tgt :=
  (due_iff_of_lt (hs.target_lt hb)).1 hd

/-! ### Edges that keep the invariants -/

/-- One tick after an edge that set the target one pulse width ahead, it is `P - 1` ticks ahead. -/
theorem pulse_sub_one_toNat {c : Config} (hc : c.wf) (t : Word) :
    (t + pulse c - (t + 1)).toNat = c.pulseTicks - 1 := by
  obtain ⟨h1, h2, -⟩ := hc
  have := t.isLt
  rw [pulse, BitVec.toNat_sub, BitVec.toNat_add, BitVec.toNat_add, BitVec.toNat_ofNat,
    show (1 : Word).toNat = 1 from rfl]
  omega

/-- One tick nearer to a target not yet reached. -/
theorem sub_succ_toNat {now tgt : Word} (h : now ≠ tgt) : (tgt - (now + 1)).toNat = (tgt - now).toNat - 1 := by
  have hne : now.toNat ≠ tgt.toNat := fun he => h (BitVec.eq_of_toNat_eq he)
  have := now.isLt
  have := tgt.isLt
  rw [BitVec.toNat_sub, BitVec.toNat_sub, BitVec.toNat_add, show (1 : Word).toNat = 1 from rfl]
  omega

/-- An edge that writes a slot's level sets the target one pulse width ahead and keeps the block busy. -/
theorem inv_after_write {s : State} {n : Regs} (hc : s.cfg.wf) (hnow : n.now = s.regs.now + 1)
    (ht : n.tgt = s.regs.now + pulse s.cfg) (ho : n.pinOe = true) (hd : n.done = false) (hb : n.phase ≠ .idle)
    (hi : PhaseInv n n.phase) : (s.after n).Inv := by
  refine inv_of_busy hc hb ho hd hi ?_
  rw [after_regs, ht, hnow, pulse_sub_one_toNat hc]
  exact le_refl _

/-- The same for a slot within a frame, where the target moves on by one pulse width. -/
theorem inv_after_slot {s : State} {n : Regs} (hs : s.Inv) (hb : s.regs.phase ≠ .idle)
    (hdue : due s.regs.now s.regs.tgt = true) (hnow : n.now = s.regs.now + 1)
    (ht : n.tgt = s.regs.tgt + pulse s.cfg) (ho : n.pinOe = s.regs.pinOe) (hd : n.done = false)
    (hb' : n.phase ≠ .idle) (hi : PhaseInv n n.phase) : (s.after n).Inv :=
  inv_after_write hs.cfg hnow (by rw [ht, hs.now_eq_tgt hb hdue]) (ho.trans (hs.pinOe_of_busy hb)) hd hb' hi

/-- A wait edge brings the target one tick nearer (44_pulse_transmitter.md R134). -/
theorem inv_after_wait {s : State} (hs : s.Inv) (hb : s.regs.phase ≠ .idle)
    (hd : due s.regs.now s.regs.tgt = false) : (s.after (edge s.regs)).Inv := by
  have hne : s.regs.now ≠ s.regs.tgt := fun h => by
    simp [(due_iff_of_lt (hs.target_lt hb)).2 h] at hd
  refine inv_of_busy hs.cfg hb (hs.pinOe_of_busy hb) rfl hs.phaseInv ?_
  have := hs.target hb
  simp only [after_regs, after_cfg, edge_tgt, edge_now, sub_succ_toNat hne]
  omega

/-- A frame starts in PRE as item 4 says. -/
theorem phaseInv_startFrame (c : Config) (t : Word) (gi bi : Fin 4) (on : Bool) (n : Regs) :
    PhaseInv (startFrame c t gi bi on n) .pre := ⟨rfl, rfl, rfl, rfl⟩

/-- The first payload bit begins as item 6 says. -/
theorem phaseInv_advanceSync {c : Config} {r : Regs} (hi : PhaseInv r .sync) : PhaseInv (advanceSync c r) .pay := by
  obtain ⟨-, hbit, htog, -, -⟩ := hi
  refine ⟨rfl, by simp [advanceSync, hbit], by simp [advanceSync, hbit, htog], ?_, ?_⟩
  · simpa [advanceSync, hbit] using r.shreg.isLt
  · cases h : r.shreg.getLsbD 0 <;> simp [advanceSync, h, runLoad]

/-- The next payload bit begins as item 6 says: one bit fewer is left, the toggling state flips. -/
theorem phaseInv_nextBit {c : Config} {r : Regs} (hi : PhaseInv r .pay) (hb : r.bitcnt ≠ 1) :
    PhaseInv (pinWrite (!r.tog) { finishBit c r with run := runLoad (r.shreg.getLsbD 1) }) .pay := by
  obtain ⟨-, hpos, htog, hlt, -⟩ := hi
  have h1 : r.bitcnt.val ≠ 1 := fun h => hb (Fin.ext h)
  have hdown : bitcntDown r.now r.bitcnt = down r.bitcnt := bitcntDown_eq_down fun h => by simp [h] at hpos
  have hle := r.bitcnt.isLt
  obtain ⟨k, hk⟩ : ∃ k, r.bitcnt.val = k + 1 := ⟨r.bitcnt.val - 1, by omega⟩
  refine ⟨rfl, ?_, ?_, ?_, ?_⟩
  · show 1 ≤ (bitcntDown r.now r.bitcnt).val
    rw [hdown, down_val]
    omega
  · simp only [pinWrite_tog, finishBit_tog, pinWrite_bitcnt, finishBit_bitcnt, hdown, down_val, htog]
    rw [Bool.eq_iff_iff, Bool.not_eq_true', decide_eq_false_iff_not, decide_eq_true_iff]
    omega
  · show (r.shreg >>> 1).toNat < 2 ^ (bitcntDown r.now r.bitcnt).val
    rw [hk, Nat.pow_succ] at hlt
    rw [hdown, down_val, hk, Nat.add_sub_cancel, BitVec.toNat_ushiftRight, Nat.shiftRight_eq_div_pow]
    omega
  · cases h : r.shreg.getLsbD 1 <;> simp [h, runLoad]

/-- The postamble begins as item 7 says: no bit is left, and the toggling state is 0 after 48 flips. -/
theorem phaseInv_lastBit {c : Config} {r : Regs} (hi : PhaseInv r .pay) (hr : r.run = 0) (hb : r.bitcnt = 1) :
    PhaseInv (pinWrite false { finishBit c r with phase := .post, cnt := 1 }) .post := by
  obtain ⟨-, -, htog, hlt, -⟩ := hi
  rw [hb] at htog hlt
  have hbit : bitcntDown r.now r.bitcnt = 0 := by rw [hb]; rfl
  have hsh : r.shreg >>> 1 = 0 := by
    apply BitVec.eq_of_toNat_eq
    rw [BitVec.toNat_ushiftRight, Nat.shiftRight_eq_div_pow]
    exact Nat.div_eq_of_lt hlt
  exact ⟨rfl, hbit, hsh, by simp [htog], hr, le_refl 1⟩

/-- Every edge keeps the invariants, outcome by outcome. -/
theorem inv_after_nextRegs {s : State} (hs : s.Inv) : (s.after (nextRegs s)).Inv := by
  have hc := hs.cfg
  apply nextRegs_elim s (fun n => (s.after n).Inv)
  case reset => exact fun _ => inv_of_idle hc rfl rfl ⟨rfl, rfl, rfl, rfl, rfl, rfl, rfl⟩
  case quiet =>
    rintro - (⟨hp, -⟩ | ⟨hb, hd⟩)
    · exact inv_of_idle hc hp rfl (hs.idle hp)
    · exact inv_after_wait hs hb hd
  case raised => exact fun _ _ ⟨_, hp, _⟩ => inv_of_idle hc hp rfl (hs.idle hp)
  case init => exact fun _ ⟨_, hp, _⟩ _ _ => inv_of_idle hc hp rfl (hs.idle hp)
  case start =>
    exact fun _ _ _ _ _ _ _ _ _ _ ho _ => inv_after_write hc rfl rfl ho rfl (by simp) (phaseInv_startFrame ..)
  case pre =>
    intro _ hd hp _
    obtain ⟨-, hi⟩ := hs.pre hp
    exact inv_after_slot hs (by simp [hp]) hd rfl rfl rfl rfl (by simp [hp]) (by simpa [hp] using ⟨rfl, hi⟩)
  case preEnd =>
    intro _ hd hp hcnt
    obtain ⟨-, hbit, htog, hrun⟩ := hs.pre hp
    exact inv_after_slot hs (by simp [hp]) hd rfl rfl rfl rfl (by simp) ⟨rfl, hbit, htog, hrun, hcnt⟩
  case sync =>
    intro _ hd hp
    exact inv_after_slot hs (by simp [hp]) hd rfl rfl rfl rfl (by simp [advanceSync])
      (phaseInv_advanceSync (hs.sync hp))
  case payRun =>
    intro _ hd hp hrun
    obtain ⟨-, hpos, htog, hlt, hbit⟩ := hs.pay hp
    exact inv_after_slot hs (by simp [hp]) hd rfl rfl rfl rfl (by simp [hp])
      (by simpa [hp] using ⟨rfl, hpos, htog, hlt, fun _ => hbit hrun⟩)
  case payBit =>
    intro _ hd hp _ hb
    exact inv_after_slot hs (by simp [hp]) hd rfl rfl rfl rfl (by simp [hp])
      (by simpa [hp] using phaseInv_nextBit (hs.pay hp) hb)
  case payEnd =>
    intro _ hd hp hrun hb
    exact inv_after_slot hs (by simp [hp]) hd rfl rfl rfl rfl (by simp) (phaseInv_lastBit (hs.pay hp) hrun hb)
  case post =>
    intro _ hd hp _
    obtain ⟨-, hbit, hsh, htog, hrun, hcnt⟩ := hs.post hp
    exact inv_after_slot hs (by simp [hp]) hd rfl rfl rfl rfl (by simp [hp])
      (by simpa [hp] using ⟨rfl, hbit, hsh, htog, hrun, (Nat.sub_le _ _).trans hcnt⟩)
  case complete =>
    intro _ _ hp hcnt hrep
    obtain ⟨hl, hbit, hsh, htog, hrun, -⟩ := hs.post hp
    exact inv_of_idle hc rfl rfl ⟨hl, hrep, hbit, hsh, htog, hrun, hcnt⟩
  case again =>
    intro _ _ hp _ _ _
    exact inv_after_write hc rfl rfl (hs.pinOe_of_busy (by simp [hp])) rfl (by simp) (phaseInv_startFrame ..)
  case cutShort =>
    intro _ _ hp hcnt _ _
    obtain ⟨hl, hbit, hsh, htog, hrun, -⟩ := hs.post hp
    exact inv_of_idle hc rfl rfl ⟨hl, rfl, hbit, hsh, htog, hrun, hcnt⟩

end Sys2Proof.Machine

open Sys2Proof Sys2Proof.Machine

/-- Settles O27, by the cases of a step. -/
theorem everyStepKeepsTheInvariants : Obligations.EveryStepKeepsTheInvariants := by
  intro s t hs ht
  rw [step_next_iff] at ht
  exact ht ▸ inv_after_nextRegs hs

end

section
/-! Bounded completion: the slots a frame in flight has left, and the frames that can still follow it. -/

namespace Sys2Proof.Machine

open Sys2Proof

/-! ### How many slots are left -/

theorem ones_le_length (bits : List Bit) : ones bits ≤ bits.length := List.count_le_length

/-- A bit occupies at most three slots (41_waveform_encoder.md R101). -/
theorem encodeFrom_length_le (state : Level) (v w : Nat) : (encodeFrom state (lsbFirst v w)).length ≤ 3 * w := by
  have := ones_le_length (lsbFirst v w)
  rw [encodeFrom_length]
  rw [lsbFirst_length] at *
  omega

/-- A frame in flight has at most 172 slots after the one on the pin: 25 of the preamble, the sync slot, three for each of
48 bits, two of the postamble. -/
theorem levelsLeft_length_le (r : Regs) : (levelsLeft r).length ≤ 172 := by
  unfold levelsLeft
  have hcnt := r.cnt.isLt
  have hrun := r.run.isLt
  have hbit := r.bitcnt.isLt
  cases hp : r.phase with
  | idle => exact Nat.zero_le _
  | post =>
    rw [List.length_replicate]
    omega
  | pay =>
    have := encodeFrom_length_le (!r.tog) (r.shreg.toNat / 2) (r.bitcnt.val - 1)
    simp only [List.length_append, List.length_cons, List.length_nil, List.length_replicate]
    omega
  | _ =>
    have := encodeFrom_length_le r.tog r.shreg.toNat r.bitcnt.val
    simp only [List.length_append, List.length_cons, List.length_nil, List.length_replicate]
    omega

/-- The Action Codes have eight 1 bits each (20_memory.md R42). -/
theorem ones_romAct (on : Bool) : ones (lsbFirst (romAct on).toNat 16) = 8 := by
  cases on <;> decide

/-- A frame has at most 157 slots: at most 32 of the Channel Code's bits and 8 of the Action Code's are 1
(30_encoding.md R68). -/
theorem frame_length_le (c : Config) (gi bi : Fin 4) (on : Bool) :
    (frame (lsbFirst (commandCode c gi bi on).toNat 48)).length ≤ 157 := by
  have hact : (commandCode c gi bi on).toNat / 2 ^ 32 = (romAct on).toNat := by
    rw [← commandCode_action c gi bi on, BitVec.extractLsb'_toNat, Nat.shiftRight_eq_div_pow]
    have := (commandCode c gi bi on).isLt
    omega
  have hsplit : lsbFirst (commandCode c gi bi on).toNat 48 =
      lsbFirst (commandCode c gi bi on).toNat 32 ++ lsbFirst (romAct on).toNat 16 :=
    hact ▸ lsbFirst_add _ 32 16
  have hch := ones_le_length (lsbFirst (commandCode c gi bi on).toNat 32)
  rw [lsbFirst_length] at hch
  rw [frame_length, lsbFirst_length, hsplit, ones, List.count_append, ← ones, ← ones, ones_romAct]
  omega

/-! ### Runs that end with one response -/

/-- Within `bound` edges the block is idle with `DONE = 1`, and has given the one response that `RESP` then holds. -/
def CompletesWithin (bound : Nat) (s : State) : Prop :=
  ∃ k o, k ≤ bound ∧ observe k s = some o ∧ o.responses = [o.final.regs.resp] ∧
    o.final.regs.phase = .idle ∧ o.final.regs.done = true

/-- Edges without a response may come before. -/
theorem CompletesWithin.prepend {a b : Nat} {s t : State} {w : List (Word × Level)}
    (ho : observe a s = some ⟨w, [], t⟩) (ht : CompletesWithin b t) : CompletesWithin (a + b) s := by
  obtain ⟨k, o, hk, hok, hresp, hend⟩ := ht
  exact ⟨a + k, _, by omega, observe_add_of ho hok, hresp, hend⟩

theorem CompletesWithin.mono {a b : Nat} {s : State} (hab : a ≤ b) (h : CompletesWithin a s) :
    CompletesWithin b s := by
  obtain ⟨k, o, hk, h⟩ := h
  exact ⟨k, o, hk.trans hab, h⟩

/-- From the end of a frame with `reps` to come: the command completes there, or is cut short there, or a further frame is
sent (45_commands.md R157). -/
theorem completesWithin_of_atFrameEnd (reps : Nat) {s : State} (h : AtFrameEnd s) (hrep : s.regs.rep.val = reps)
    (hP : 1 ≤ s.cfg.pulseTicks) (hP2 : s.cfg.pulseTicks < 2 ^ 31) (ho : s.regs.pinOe = true)
    (hr : s.noReset (reps * (157 * s.cfg.pulseTicks) + 1)) :
    CompletesWithin (reps * (157 * s.cfg.pulseTicks) + 1) s := by
  have hr0 : s.inp.rst = false := hr 0 (by omega)
  induction reps generalizing s with
  | zero => exact ⟨1, _, by omega, observe_complete h hr0 (Fin.ext hrep), rfl, rfl, rfl⟩
  | succ reps ih =>
    have hne : s.regs.rep ≠ 0 := fun he => by simp [he] at hrep
    cases hg : s.inp.gpioOk with
    | false => exact ⟨1, _, by omega, observe_cutShort h hr0 hne hg, rfl, rfl, rfl⟩
    | true =>
      have hs := startsFrame_of_atFrameEnd h hr0 hne hg ho
      have hlen := Nat.mul_le_mul_right s.cfg.pulseTicks (frame_length_le s.cfg s.regs.selG s.regs.selB s.regs.selOn)
      have hsucc : (reps + 1) * (157 * s.cfg.pulseTicks) + 1 =
          157 * s.cfg.pulseTicks + (reps * (157 * s.cfg.pulseTicks) + 1) := by
        rw [Nat.succ_mul]; omega
      rw [hsucc] at hr ⊢
      obtain ⟨t, hot, hlat, ht, -, hsame⟩ := observe_startFrame hs hP hP2 rfl (noReset_mono (by omega) hr)
      have hc := hlat.cfg
      have hrt : t.noReset (reps * (157 * t.cfg.pulseTicks) + 1) :=
        hc ▸ hlat.noReset (noReset_mono (by omega) hr)
      have hrest := ih ht (hsame.rep ▸ hs.rep.trans (by omega)) (hc ▸ hP) (hc ▸ hP2) (hsame.pinOe.trans hs.pinOe)
        hrt (hrt 0 (by omega))
      rw [hc] at hrest
      exact (hrest.prepend hot).mono (by omega)

/-- A transmission in flight has payload bits left until its postamble. -/
theorem State.Inv.bitsLeft {s : State} (hs : s.Inv) (hb : s.regs.phase ≠ .idle) : bitsLeft s.regs := by
  refine ⟨hb, fun hpost => ?_⟩
  cases hp : s.regs.phase with
  | idle => exact absurd hp hb
  | pre => obtain ⟨-, h, -⟩ := hs.pre hp; simp [h]
  | sync => obtain ⟨-, h, -⟩ := hs.sync hp; simp [h]
  | pay => obtain ⟨-, h, -⟩ := hs.pay hp; omega
  | post => exact absurd hp hpost

/-- From any edge of a transmission the end of the frame in flight is less than 173 slots away, without a response on the
way: the rest of the slot on the pin, then the slots left. -/
theorem observe_to_frameEnd {s : State} (hs : s.Inv) (hb : s.regs.phase ≠ .idle)
    (hr : s.noReset (173 * s.cfg.pulseTicks)) :
    ∃ k w t, k + 1 ≤ 173 * s.cfg.pulseTicks ∧ observe k s = some ⟨w, [], t⟩ ∧ Later k s t ∧ AtFrameEnd t ∧
      SameCommand s.regs t.regs := by
  obtain ⟨hP, hP2, -⟩ := hs.cfg
  have hlen := Nat.mul_le_mul_right s.cfg.pulseTicks (levelsLeft_length_le s.regs)
  have hd := hs.target hb
  obtain ⟨t, hot, hlat, ht⟩ := observe_wait s hb rfl (hs.target_lt hb) (noReset_mono (by omega) hr)
  have hc := hlat.cfg
  have hleft : levelsLeft t.regs = levelsLeft s.regs := by rw [ht]; rfl
  have hsame : SameCommand s.regs t.regs := by rw [ht]; exact ⟨rfl, rfl, rfl, rfl, rfl, rfl⟩
  obtain ⟨u, hou, hlu, hu, -, hsu⟩ := observe_levelsLeft (levelsLeft s.regs) (t0 := t.regs.tgt.toNat)
    (hc ▸ hP) (hc ▸ hP2) (by rw [ht]; exact hs.bitsLeft hb) (by rw [ht])
    (by rw [BitVec.ofNat_toNat, BitVec.setWidth_eq]) hleft
    (by rw [hc]; exact hlat.noReset (noReset_mono (by omega) hr))
  rw [hc] at hou hlu
  exact ⟨_, _, u, by omega, observe_add_of hot hou, hlat.trans hlu, hu, hsame.trans hsu⟩

/-- The frame in flight, and at most four more (10_state.md R27). -/
theorem completesWithin_of_busy {s : State} (hs : s.Inv) (hb : s.regs.phase ≠ .idle)
    (hr : s.noReset (801 * s.cfg.pulseTicks)) : CompletesWithin (801 * s.cfg.pulseTicks) s := by
  obtain ⟨hP, hP2, -⟩ := hs.cfg
  obtain ⟨k, w, t, hk, hot, hlat, ht, hsame⟩ := observe_to_frameEnd hs hb (noReset_mono (by omega) hr)
  have hrep : t.regs.rep.val ≤ 4 := Nat.le_of_lt_succ t.regs.rep.isLt
  have hfour := Nat.mul_le_mul_right (157 * s.cfg.pulseTicks) hrep
  have hc := hlat.cfg
  have hrest := completesWithin_of_atFrameEnd _ ht rfl (hc ▸ hP) (hc ▸ hP2)
    (hsame.pinOe.trans (hs.pinOe_of_busy hb)) (by rw [hc]; exact hlat.noReset (noReset_mono (by omega) hr))
  rw [hc] at hrest
  exact (hrest.prepend hot).mono (by omega)

end Sys2Proof.Machine

open Sys2Proof Sys2Proof.Machine

/-- Settles O51: the frame in flight ends, and from its end at most four more frames follow. -/
theorem everyTransmissionEndsWithOneResponse : Obligations.EveryTransmissionEndsWithOneResponse :=
  fun _ hs hb hr => completesWithin_of_busy hs hb hr

end

section
/-! What a step does to single registers, and the outputs. -/

namespace Sys2Proof.Machine

open Sys2Proof

/-! ### The words of the commands -/

theorem eq_formatC {c : CmdWord} {op : BitVec 4} (h : opField c = op ∧ rsvField c = 0#4) :
    c = formatC op 0#4 (groupField c) (buttonField c) := by
  obtain ⟨rfl, hrsv⟩ := h
  rw [← hrsv, formatC_fields]

/-- A word of a row is the encoding of the command it decodes to (30_encoding.md R62). -/
theorem eq_encode_of_decode {c : CmdWord} {i : Instr} (h : decode c = .ok i) : c = encode i := by
  rw [decode_eq] at h
  split_ifs at h with h1 h2 h3 h4 h5 <;> cases h
  · exact h1
  · exact eq_formatC h2
  · exact eq_formatC h3
  · exact eq_formatC h4
  · exact eq_formatC h5

/-! ### Registers over an edge -/

/-- `NOW` counts every edge (R15). -/
theorem nextRegs_now {s : State} (hr : s.inp.rst = false) : (nextRegs s).now = s.regs.now + 1 := by
  apply nextRegs_elim s (fun n => n.now = s.regs.now + 1)
  case reset => simp [hr]
  all_goals intros; rfl

/-- A pin write sets the target one pulse width after the edge; no other edge writes it (R16, 44_pulse_transmitter.md R134
to R136). Within a frame the edge is the target's own. -/
theorem nextRegs_tgt {s : State} (hs : s.Inv) (hr : s.inp.rst = false) :
    (nextRegs s).tgt = if (nextRegs s).pinWr then s.regs.now + pulse s.cfg else s.regs.tgt := by
  have slot {p : Phase} (hd : due s.regs.now s.regs.tgt = true) (hp : s.regs.phase = p) (hb : p ≠ .idle) :
      s.regs.tgt + pulse s.cfg = s.regs.now + pulse s.cfg := by
    rw [hs.now_eq_tgt (hp ▸ hb) hd]
  apply nextRegs_elim s (fun n => n.tgt = if n.pinWr then s.regs.now + pulse s.cfg else s.regs.tgt)
  case reset => simp [hr]
  case quiet | raised | init | start | complete | again | cutShort => intros; rfl
  case sync => exact fun _ hd hp => slot hd hp (by decide)
  case pre | preEnd | payRun | post => exact fun _ hd hp _ => slot hd hp (by decide)
  case payBit | payEnd => exact fun _ hd hp _ _ => slot hd hp (by decide)

/-- Only a successful INIT sets `PIN_OE`, and only a reset edge clears it (R17). -/
theorem nextRegs_pinOe (s : State) :
    (nextRegs s).pinOe = s.regs.pinOe ∨
      ((nextRegs s).pinOe = true ∧ s.presents 0x1000#16 ∧ s.inp.gpioOk = true) ∨
      ((nextRegs s).pinOe = false ∧ s.inp.rst = true) := by
  apply nextRegs_elim s (fun n => n.pinOe = s.regs.pinOe ∨
    (n.pinOe = true ∧ s.presents 0x1000#16 ∧ s.inp.gpioOk = true) ∨ (n.pinOe = false ∧ s.inp.rst = true))
  case reset => exact fun hr => .inr (.inr ⟨rfl, hr⟩)
  case init =>
    intro c hp hd hg
    have hword : c = 0x1000#16 := eq_encode_of_decode hd
    exact .inr (.inl ⟨rfl, hword ▸ hp, hg⟩)
  all_goals intros; exact .inl rfl

/-- An edge without a pin write keeps the level (R18). -/
theorem nextRegs_pinLvl {s : State} (hr : s.inp.rst = false) :
    (nextRegs s).pinWr = false → (nextRegs s).pinLvl = s.regs.pinLvl := by
  apply nextRegs_elim s (fun n => n.pinWr = false → n.pinLvl = s.regs.pinLvl)
  case reset => simp [hr]
  case quiet | raised | init | complete | cutShort => intros; rfl
  all_goals intros; contradiction

/-- `DONE` is 1 after exactly the edges that leave the block idle after a command was accepted or in flight (R29). -/
theorem nextRegs_done {s : State} (hr : s.inp.rst = false) :
    (nextRegs s).done = true ↔ (nextRegs s).phase = .idle ∧
      ((s.regs.phase = .idle ∧ s.inp.cmdValid = true) ∨ s.regs.phase ≠ .idle) := by
  apply nextRegs_elim s (fun n => n.done = true ↔
    n.phase = .idle ∧ ((s.regs.phase = .idle ∧ s.inp.cmdValid = true) ∨ s.regs.phase ≠ .idle))
  case reset => simp [hr]
  case quiet => rintro - (⟨hp, hv⟩ | ⟨hb, -⟩) <;> simp [*]
  case raised => exact fun _ _ ⟨_, hp, hv, _⟩ => by simp [hp, hv]
  case init => exact fun _ ⟨_, hp, hv, _⟩ _ _ => by simp [hp, hv]
  case sync => intros; simp [advanceSync]
  all_goals intros; simp [*]

/-- `RESP` is written only with `DONE` (R30). -/
theorem nextRegs_resp {s : State} (hr : s.inp.rst = false) :
    (nextRegs s).done = false → (nextRegs s).resp = s.regs.resp := by
  apply nextRegs_elim s (fun n => n.done = false → n.resp = s.regs.resp)
  case reset => simp [hr]
  case raised | init | complete | cutShort => intros; contradiction
  all_goals intros; rfl

/-- The latched selection is written only where a legal SEND or SWITCH starts (R28). -/
theorem nextRegs_sel {s : State} (hr : s.inp.rst = false) :
    ((nextRegs s).selG = s.regs.selG ∧ (nextRegs s).selB = s.regs.selB ∧ (nextRegs s).selOn = s.regs.selOn) ∨
      ∃ i : Instr, i ≠ .init ∧ i.wellFormed = true ∧ s.presents (encode i) ∧ s.regs.pinOe = true ∧
        s.inp.gpioOk = true ∧ (nextRegs s).phase = .pre := by
  apply nextRegs_elim s (fun n => (n.selG = s.regs.selG ∧ n.selB = s.regs.selB ∧ n.selOn = s.regs.selOn) ∨
    ∃ i : Instr, i ≠ .init ∧ i.wellFormed = true ∧ s.presents (encode i) ∧ s.regs.pinOe = true ∧
      s.inp.gpioOk = true ∧ n.phase = .pre)
  case reset => simp [hr]
  case start =>
    intro c i _ _ _ _ hp hd hi hw ho hg
    exact .inr ⟨i, hi, hw, eq_encode_of_decode hd ▸ hp, ho, hg, rfl⟩
  all_goals intros; exact .inl ⟨rfl, rfl, rfl⟩

/-! ### The parameters of `State.reset` -/

/-- The default pulse width is in range, and a permutation gives distinct codes (log 4). -/
theorem config_default_wf : Config.default.wf := by
  refine ⟨by decide, by decide, fun g b g' b' h => ?_⟩
  simp only [Config.default, Vector.get_ofFn, EmbeddingLike.apply_eq_iff_eq] at h
  have hval := congrArg BitVec.toNat h
  rw [BitVec.toNat_ofNat, BitVec.toNat_ofNat] at hval
  omega

end Sys2Proof.Machine

open Sys2Proof Sys2Proof.Machine

/-- Settles O24: `NOW` counts at every outcome but the reset. -/
theorem nowCountsEveryEdge : Obligations.NowCountsEveryEdge := by
  intro s t ht
  obtain rfl := step_next_iff.1 ht
  refine ⟨fun hr => ?_, fun hr => ?_⟩
  · rw [after_regs, nextRegs_now hr, BitVec.toNat_add]
    rfl
  · rw [after_regs, nextRegs_of_rst hr]
    rfl

/-- Settles O25: within a frame a write is made at the target, so one pulse width after the target is one after `NOW`. -/
theorem pinWriteSetsTheTargetOnePulseAhead : Obligations.PinWriteSetsTheTargetOnePulseAhead := by
  intro s t hs hr ht
  obtain rfl := step_next_iff.1 ht
  have htgt := nextRegs_tgt hs hr
  exact ⟨fun hw => htgt.trans (if_pos hw), fun hw => htgt.trans (if_neg (by simp [← hw]))⟩

/-- Settles O28: every outcome but INIT's success and the reset keeps `PIN_OE`. -/
theorem onlyInitSetsAndOnlyResetClearsPinOe : Obligations.OnlyInitSetsAndOnlyResetClearsPinOe := by
  intro s t ht
  obtain rfl := step_next_iff.1 ht
  rw [after_regs]
  rcases nextRegs_pinOe s with hkept | ⟨hset, hinit⟩ | ⟨hcleared, hrst⟩
  · simp +contextual [hkept]
  · exact ⟨fun _ _ => hinit, by simp [hset]⟩
  · exact ⟨by simp [hcleared], fun _ _ => hrst⟩

/-- Settles O29: every outcome that writes the level sets `PIN_WR`. -/
theorem pinLevelHoldsBetweenWrites : Obligations.PinLevelHoldsBetweenWrites := by
  intro s t hr ht
  obtain rfl := step_next_iff.1 ht
  exact nextRegs_pinLvl hr

/-- Settles O30: the outcomes with a response are those that leave the block idle after a command. -/
theorem doneMarksCompletionAndRespHoldsOtherwise : Obligations.DoneMarksCompletionAndRespHoldsOtherwise := by
  intro s t hr ht
  obtain rfl := step_next_iff.1 ht
  exact ⟨nextRegs_done hr, nextRegs_resp hr⟩

/-- Settles O31: every outcome but a start keeps the selection. -/
theorem selectionIsLatchedOnlyAtAStart : Obligations.SelectionIsLatchedOnlyAtAStart := by
  intro s t hr ht hchanged
  obtain rfl := step_next_iff.1 ht
  exact (nextRegs_sel hr).resolve_left hchanged

/-- Settles O9: a reset edge writes `Regs.reset`. -/
theorem resetEdgeResetsEveryRegister : Obligations.ResetEdgeResetsEveryRegister := by
  intro s hr
  exact ⟨Regs.reset, by rw [step_eq, nextRegs_of_rst hr], rfl, rfl⟩

/-- Settles O10: the reset values stand in `Regs.reset` as R35 lists them. -/
theorem resetStateHoldsTheResetValues : Obligations.ResetStateHoldsTheResetValues := ⟨rfl, rfl⟩

/-- Settles O11, response by response for the `resp` port. -/
theorem outputsAreFunctionsOfTheRegisters : Obligations.OutputsAreFunctionsOfTheRegisters := by
  intro r
  refine ⟨beq_iff_eq, rfl, rfl, rfl, rfl, rfl, ?_⟩
  cases h : r.resp <;> simp [Regs.outputs, Resp.code, h]

/-- Settles O26: the reset state is idle, and its parameters are a legal pulse width and distinct codes. -/
theorem resetStateMeetsTheInvariants : Obligations.ResetStateMeetsTheInvariants :=
  inv_of_idle config_default_wf rfl rfl ⟨rfl, rfl, rfl, rfl, rfl, rfl, rfl⟩

end

section
/-! The payload of a command as the words of its two ROMs. -/

namespace Sys2Proof.Machine

open Sys2Proof

/-- The bits of two words joined: those of the low word, then those of the high one. -/
theorem lsbFirst_toNat_append {m n : Nat} (hi : BitVec m) (lo : BitVec n) :
    lsbFirst (hi ++ lo).toNat (n + m) = lsbFirst lo.toNat n ++ lsbFirst hi.toNat m := by
  have hjoin : (hi ++ lo).toNat = 2 ^ n * hi.toNat + lo.toNat := by
    rw [BitVec.toNat_append, ← Nat.shiftLeft_add_eq_or_of_lt lo.isLt, Nat.shiftLeft_eq, Nat.mul_comm]
  have hlow : (hi ++ lo).toNat % 2 ^ n = lo.toNat := by
    rw [hjoin, Nat.mul_add_mod, Nat.mod_eq_of_lt lo.isLt]
  have hhigh : (hi ++ lo).toNat / 2 ^ n = hi.toNat := by
    rw [hjoin, Nat.mul_add_div (Nat.two_pow_pos n), Nat.div_eq_of_lt lo.isLt, Nat.add_zero]
  rw [lsbFirst_add, hhigh, ← lsbFirst_mod, hlow]

/-- The bits of a Command Code: those of its Channel Code, then those of its Action Code (20_memory.md R43). -/
theorem lsbFirst_commandCode (c : Config) (gi bi : Fin 4) (on : Bool) :
    lsbFirst (commandCode c gi bi on).toNat 48 =
      lsbFirst (romCh c gi bi).toNat 32 ++ lsbFirst (romAct on).toNat 16 :=
  lsbFirst_toNat_append (romAct on) (romCh c gi bi)

/-- The Action Codes as numbers (20_memory.md R42). -/
theorem romAct_toNat (on : Bool) : (romAct on).toNat = if on = true then 0x3333 else 0x5333 := by
  cases on <;> rfl

end Sys2Proof.Machine

open Sys2Proof Sys2Proof.Machine

/-- Settles O41: the payload is the bits of the Command Code, whose low word is the Channel Code and whose high word is the
Action Code. -/
theorem commandBitsAreTheCommandCode : Obligations.CommandBitsAreTheCommandCode := by
  intro c gi bi on
  refine ⟨lsbFirst (romCh c gi bi).toNat 32, lsbFirst (romAct on).toNat 16,
    lsbFirst (commandCode c gi bi on).toNat 48, ?_, ?_, commandBits_eq c gi bi on,
    lsbFirst_commandCode c gi bi on, lsbFirst_length _ _, fun k hk => ?_⟩
  · exact toBits_of_le _ 32 (by decide) (by decide)
  · rw [← romAct_toNat]
    exact toBits_of_le _ 16 (by decide) (by decide)
  · rw [lsbFirst_getElem? _ _ _ hk, BitVec.testBit_toNat]

end

section
/-! The decoder and the encoder of command words: each command's word and the words that are no legal command
(30_encoding.md R60 to R64). -/

namespace Sys2Proof

/-! ### The word of a command -/

/-- The word of INIT, field by field (R60, R62). -/
theorem formatC_eq_initWord_iff {op rsv g b : BitVec 4} :
    formatC op rsv g b = 0x1000#16 ↔ op = 1#4 ∧ rsv = 0#4 ∧ g = 0#4 ∧ b = 0#4 :=
  formatC_inj (op' := 1#4) (rsv' := 0#4) (g' := 0#4) (b' := 0#4)

/-- The row of a command's word gives the command back, whatever its selectors are (R62). -/
theorem decode_encode (i : Instr) : decode (encode i) = .ok i := by
  cases i with
  | init => rfl
  | _ g b => simp [decode_eq, encode, formatC_eq_initWord_iff]

theorem encode_injective : Function.Injective encode := fun i j h =>
  Except.ok.inj (by rw [← decode_encode i, h, decode_encode])

/-- `Decode` of R64 on a command's word: the command when its operands are legal, `Illegal` when they are not. -/
theorem decodeCmd_encode (i : Instr) : decodeCmd (encode i) = if i.wellFormed then i.toCmd else .illegal := by
  cases i with
  | init => rfl
  | _ g b => simp [decodeCmd_eq, encode, formatC_eq_initWord_iff, Instr.wellFormed, Instr.toCmd]

theorem toCmd_ne_illegal (i : Instr) : i.toCmd ≠ .illegal := by
  cases i <;> nofun

/-! ### Row selection and `Decode` of R64 -/

/-- Row selection followed by the operand check, on a word of a row. -/
theorem decodeCmd_of_decode_ok {c : CmdWord} {i : Instr} (h : decode c = .ok i) :
    decodeCmd c = if i.wellFormed then i.toCmd else .illegal := by
  rw [Machine.eq_encode_of_decode h, decodeCmd_encode]

/-- A word is illegal exactly when it is neither INIT's nor a SEND or SWITCH word with legal operands (R63). -/
theorem decodeCmd_eq_illegal_iff (c : CmdWord) :
    decodeCmd c = .illegal ↔ c ≠ 0x1000#16 ∧
      (opField c = 2#4 ∨ opField c = 3#4 ∨ opField c = 4#4 ∨ opField c = 5#4 →
        ¬(rsvField c = 0#4 ∧ selectorLegal (groupField c) = true ∧ selectorLegal (buttonField c) = true)) := by
  rw [decodeCmd_eq]
  split_ifs <;> simp_all

/-- A word of no row is illegal (R63). -/
theorem decodeCmd_of_decode_error {c : CmdWord} {e : DecodeError} (h : decode c = .error e) :
    decodeCmd c = .illegal := by
  rw [decode_eq] at h
  split_ifs at h with hinit h2 h3 h4 h5
  refine (decodeCmd_eq_illegal_iff c).mpr ⟨hinit, ?_⟩
  rintro (hop | hop | hop | hop) ⟨hrsv, -⟩
  · exact h2 ⟨hop, hrsv⟩
  · exact h3 ⟨hop, hrsv⟩
  · exact h4 ⟨hop, hrsv⟩
  · exact h5 ⟨hop, hrsv⟩

/-! ### The legal words -/

/-- The words that are not illegal are the encodings of the well-formed commands. -/
theorem decodeCmd_ne_illegal_iff {c : CmdWord} :
    decodeCmd c ≠ .illegal ↔ ∃ i : Instr, i.wellFormed = true ∧ encode i = c := by
  constructor
  · intro hlegal
    cases h : decode c with
    | error e => exact absurd (decodeCmd_of_decode_error h) hlegal
    | ok i =>
      refine ⟨i, ?_, (Machine.eq_encode_of_decode h).symm⟩
      by_contra hw
      exact hlegal (by rw [decodeCmd_of_decode_ok h, if_neg hw])
  · rintro ⟨i, hw, rfl⟩
    rw [decodeCmd_encode, if_pos hw]
    exact toCmd_ne_illegal i

/-- The four legal values of a selector (R60). -/
def legalSelectors : List (BitVec 4) := [1#4, 2#4, 3#4, 4#4]

theorem mem_legalSelectors (v : BitVec 4) : v ∈ legalSelectors ↔ selectorLegal v = true := by
  revert v
  decide

/-- The commands with legal operands: INIT, and four commands for each of the sixteen sockets (R63, "Counting"). -/
def legalInstrs : List Instr :=
  .init :: (legalSelectors ×ˢ legalSelectors).flatMap fun socket =>
    [.sendoff socket.1 socket.2, .sendon socket.1 socket.2, .swoff socket.1 socket.2, .swon socket.1 socket.2]

theorem mem_legalInstrs (i : Instr) : i ∈ legalInstrs ↔ i.wellFormed = true := by
  cases i <;> simp [legalInstrs, mem_legalSelectors, Instr.wellFormed]

theorem legalInstrs_nodup : legalInstrs.Nodup := by decide

theorem mem_map_encode_legalInstrs (c : CmdWord) : c ∈ legalInstrs.map encode ↔ decodeCmd c ≠ .illegal := by
  simp only [List.mem_map, mem_legalInstrs, decodeCmd_ne_illegal_iff]

/-! ### The illegal words, by their fields -/

/-- A word is INIT's exactly when its `OP` is 1 and its bits 11:0 are 0. -/
theorem eq_initWord_iff (c : CmdWord) :
    c = 0x1000#16 ↔ (opField c).toNat = 1 ∧ (c.extractLsb' 0 12).toNat = 0 := by
  have hc := c.isLt
  rw [← BitVec.toNat_inj]
  simp only [opField, BitVec.extractLsb'_toNat, Nat.shiftRight_eq_div_pow, BitVec.toNat_ofNat]
  omega

end Sys2Proof

open Sys2Proof Sys2Proof.Machine

/-- Settles O2, by the command's constructors: its word is of its own row, and `Decode` of R64 then looks at its
operands alone. -/
theorem decodeOfEncodeIsTheCommand : Obligations.DecodeOfEncodeIsTheCommand := by
  intro i
  exact ⟨decode_encode i, fun hw => by rw [decodeCmd_encode, if_pos hw]⟩

/-- Settles O3, row by row: the masks of R62 keep every bit that the encoder fixes. -/
theorem onlyTheEncodingDecodesToACommand : Obligations.OnlyTheEncodingDecodesToACommand := by
  intro c i h
  exact (eq_encode_of_decode h).symm

/-- Settles O4, by whether the word is of a row. -/
theorem rowAndOperandCheckAreDecodeOfR64 : Obligations.RowAndOperandCheckAreDecodeOfR64 := by
  intro c
  cases h : decode c with
  | ok i => exact decodeCmd_of_decode_ok h
  | error e => exact decodeCmd_of_decode_error h

/-- Settles O5: the cases of R63 from the fields, and the 65 words by encoding the 65 well-formed commands. -/
theorem illegalWordsAreThoseOfR63 : Obligations.IllegalWordsAreThoseOfR63 := by
  constructor
  · intro c
    rw [decodeCmd_eq_illegal_iff, Ne, eq_initWord_iff, selectorLegal_iff, selectorLegal_iff]
    simp only [← BitVec.toNat_inj, BitVec.toNat_ofNat, opField, rsvField, groupField, buttonField]
    omega
  · exact ⟨legalInstrs.map encode, legalInstrs_nodup.map encode_injective, rfl, mem_map_encode_legalInstrs⟩

/-- Settles O1: each word's row, and the name of the case of R63 for the words of none. -/
theorem commandWordsDecodeAsWritten : Obligations.CommandWordsDecodeAsWritten := by
  unfold Obligations.CommandWordsDecodeAsWritten
  decide

end

section
/-! What on/off and the Channel Code each decide about a frame (30_encoding.md R65, R68). -/

namespace Sys2Proof.Machine

open Sys2Proof

/-! ### The bits of a Command Code -/

/-- The two Action Codes differ in their bits 13 and 14 (R65). -/
theorem romAct_getLsbD_ne_iff :
    ∀ k < 16, (romAct true).getLsbD k ≠ (romAct false).getLsbD k ↔ k = 13 ∨ k = 14 := by decide

/-- "On" and "off" of one socket have Command Codes that differ in bits 45 and 46 (43_command_table.md R123). -/
theorem commandCode_getLsbD_ne_iff (c : Config) (gi bi : Fin 4) {k : Nat} (hk : k < 48) :
    (commandCode c gi bi true).getLsbD k ≠ (commandCode c gi bi false).getLsbD k ↔ k = 45 ∨ k = 46 := by
  rw [commandCode_getLsbD, commandCode_getLsbD]
  split
  case isTrue hch =>
    have hne : ¬(k = 45 ∨ k = 46) := by omega
    simp [hne]
  case isFalse hact =>
    rw [romAct_getLsbD_ne_iff (k - 32) (by omega)]
    omega

/-! ### Popcount -/

theorem lsbFirst_eq_map_range (v w : Nat) : lsbFirst v w = (List.range w).map v.testBit := by
  apply List.ext_getElem?
  intro i
  by_cases hi : i < w
  · rw [lsbFirst_getElem? v w i hi]
    simp [hi]
  · simp [hi]

/-- The 1 bits of a word, counted in the word and in its bits. -/
theorem ones_lsbFirst_toNat {n : Nat} (v : BitVec n) : ones (lsbFirst v.toNat n) = popcount v := by
  rw [lsbFirst_eq_map_range, ones, List.count_eq_countP, List.countP_map, popcount]
  simp [Function.comp_def, BitVec.testBit_toNat]

theorem popcount_le {n : Nat} (v : BitVec n) : popcount v ≤ n := by
  simpa [popcount] using List.countP_le_length (p := fun i => v.getLsbD i) (l := List.range n)

/-- The length of a command's frame (R68): both Action Codes have eight 1 bits. -/
theorem frame_commandCode_length (c : Config) (gi bi : Fin 4) (on : Bool) :
    (frame (lsbFirst (commandCode c gi bi on).toNat 48)).length = 93 + 2 * popcount (romCh c gi bi) := by
  have hones : ones (lsbFirst (commandCode c gi bi on).toNat 48) = popcount (romCh c gi bi) + 8 := by
    rw [lsbFirst_commandCode, ones, List.count_append, ← ones, ← ones, ones_lsbFirst_toNat, ones_romAct]
  rw [frame_length, lsbFirst_length, hones]
  omega

end Sys2Proof.Machine

open Sys2Proof Sys2Proof.Machine

/-- Settles O43: a payload bit is a bit of the Command Code, and on/off decides those of the Action Code alone. -/
theorem onAndOffDifferInBits45And46 : Obligations.OnAndOffDifferInBits45And46 := by
  intro c gi bi
  refine ⟨_, _, commandBits_eq c gi bi true, commandBits_eq c gi bi false, fun k hk => ?_⟩
  rw [lsbFirst_getElem? _ _ _ hk, lsbFirst_getElem? _ _ _ hk, BitVec.testBit_toNat, BitVec.testBit_toNat, Ne,
    Option.some_inj]
  exact commandCode_getLsbD_ne_iff c gi bi hk

/-- Settles O44: the length law of a frame on the Command Code, whose Channel Code has at most 32 one bits. -/
theorem frameLengthFromTheChannelCode : Obligations.FrameLengthFromTheChannelCode := by
  intro c gi bi on bits hbits
  rw [commandBits_eq, Except.ok.injEq] at hbits
  have hlen : (frame bits).length = 93 + 2 * popcount (romCh c gi bi) := hbits ▸ frame_commandCode_length c gi bi on
  have hpop := popcount_le (romCh c gi bi)
  exact ⟨hlen, by omega, by omega⟩

end

section
/-! The bit encoder: the bits of a number in the spec's arithmetic, and what `toBits` answers at every width
(40_bit_encoder.md R90 to R93). -/

namespace Sys2Proof.Machine

open Sys2Proof

/-- Bit `i` of the sequence in the arithmetic of 40_bit_encoder.md R90. -/
theorem lsbFirst_getElem?_div_mod (v w i : Nat) (h : i < w) :
    (lsbFirst v w)[i]? = some (decide (v / 2 ^ i % 2 = 1)) := by
  rw [lsbFirst_getElem? _ _ _ h, Nat.testBit_eq_decide_div_mod_eq]

/-- A width outside 1..32 is rejected, whatever the value (40_bit_encoder.md R91). -/
theorem toBits_of_lt_or_gt (v : Nat) {w : Int} (h : w < 1 ∨ 32 < w) : toBits v w = .error .invalidArgument :=
  if_pos h

/-- Bits at or above the width are dropped, at every width (40_bit_encoder.md R92). -/
theorem toBits_mod (v w : Nat) : toBits (v % 2 ^ w) w = toBits v w := by
  by_cases h : 1 ≤ w ∧ w ≤ 32
  · rw [toBits_of_le _ _ h.1 h.2, toBits_of_le _ _ h.1 h.2, lsbFirst_mod]
  · have hw : (w : Int) < 1 ∨ 32 < (w : Int) := by omega
    rw [toBits_of_lt_or_gt _ hw, toBits_of_lt_or_gt _ hw]

end Sys2Proof.Machine

open Sys2Proof Sys2Proof.Machine

/-- Settles O33: the answer is `lsbFirst v w`, whose length, elements and number are known. -/
theorem toBitsGivesTheNumberBackModuloItsWidth : Obligations.ToBitsGivesTheNumberBackModuloItsWidth := by
  intro v w h1 h2
  exact ⟨lsbFirst v w, toBits_of_le v w h1 h2, lsbFirst_length v w, lsbFirst_getElem?_div_mod v w,
    fromBits_lsbFirst v w⟩

/-- Settles O34: the guard of `toBits` decides the rejection, and the mask changes no bit below the width. -/
theorem toBitsRejectsWidthsAndDropsHighBits : Obligations.ToBitsRejectsWidthsAndDropsHighBits :=
  ⟨fun v _ h => toBits_of_lt_or_gt v h, fun v w => (toBits_mod v w).symm⟩

end

section
/-! The waveform encoder: the toggling state after any number of bits, and with it the runs of `encode`, their total
length, and how they split over a concatenation (41_waveform_encoder.md R100 to R103). -/

namespace Sys2Proof.Machine

open Sys2Proof

/-! ### The toggling state -/

/-- The toggling state after `k` bits (41_waveform_encoder.md R100). -/
def stateAfter (state : Level) (k : Nat) : Level := state ^^ decide (k % 2 = 1)

@[simp] theorem stateAfter_zero (state : Level) : stateAfter state 0 = state := Bool.xor_false state

@[simp] theorem stateAfter_false (k : Nat) : stateAfter false k = decide (k % 2 = 1) := Bool.false_xor _

/-- A bit flips the state, whatever follows it. -/
theorem stateAfter_succ (state : Level) (k : Nat) : stateAfter state (k + 1) = stateAfter (!state) k := by
  rcases Nat.mod_two_eq_zero_or_one k with hk | hk <;> simp [stateAfter, Nat.succ_mod_two_eq_one_iff, hk]

/-! ### Runs -/

/-- The levels are the runs in order, each at the state its bit finds (R100). -/
theorem encodeFrom_eq_flatten_runs (state : Level) (bits : List Bit) :
    encodeFrom state bits = (bits.mapIdx fun k b => bitRun (stateAfter state k) b).flatten := by
  induction bits generalizing state with
  | nil => rfl
  | cons b bs ih =>
    rw [encodeFrom_cons, ih, List.mapIdx_cons, List.flatten_cons, stateAfter_zero]
    simp only [stateAfter_succ]

theorem bitRun_eq_replicate (state : Level) (b : Bit) :
    bitRun state b = List.replicate (1 + 2 * (if b = true then 1 else 0)) state := by
  cases b <;> rfl

@[simp] theorem bitRun_getLast? (state : Level) (b : Bit) : (bitRun state b).getLast? = some state := by
  cases b <;> rfl

/-- The length law of R101 as the sum of the runs' lengths. -/
theorem encodeFrom_length_eq_sum (state : Level) (bits : List Bit) :
    (encodeFrom state bits).length = (bits.map fun b => if b = true then 3 else 1).sum := by
  induction bits generalizing state with
  | nil => rfl
  | cons b bs ih => rw [encodeFrom_cons, List.length_append, bitRun_length, ih, List.map_cons, List.sum_cons]

/-! ### Concatenations, the first level and the last -/

/-- The second part of a concatenation is encoded from the state the first part leaves. -/
theorem encodeFrom_append (state : Level) (as bs : List Bit) :
    encodeFrom state (as ++ bs) = encodeFrom state as ++ encodeFrom (stateAfter state as.length) bs := by
  induction as generalizing state with
  | nil => rw [List.nil_append, encodeFrom_nil, List.nil_append, List.length_nil, stateAfter_zero]
  | cons a as ih =>
    rw [List.cons_append, encodeFrom_cons, ih, encodeFrom_cons, List.append_assoc, List.length_cons, stateAfter_succ]

/-- R103 item 5: the second part is inverted exactly when the first has an odd number of bits. -/
theorem encodeBits_append (as bs : List Bit) :
    encodeBits (as ++ bs) =
      encodeBits as ++ (if as.length % 2 = 0 then encodeBits bs else (encodeBits bs).map (!·)) := by
  rw [encodeBits, encodeFrom_append, stateAfter_false]
  split
  case isTrue heven => simp [encodeBits, heven]
  case isFalse hodd =>
    rw [decide_eq_true (Nat.mod_two_ne_zero.mp hodd), ← Bool.not_false, encodeFrom_not]
    rfl

theorem encodeFrom_cons_head? (state : Level) (b : Bit) (bs : List Bit) :
    (encodeFrom state (b :: bs)).head? = some state := by
  rw [encodeFrom_cons, bitRun_eq, List.cons_append, List.head?_cons]

/-- The last level is that of the last bit's run. -/
theorem encodeFrom_concat_getLast? (state : Level) (bs : List Bit) (b : Bit) :
    (encodeFrom state (bs ++ [b])).getLast? = some (stateAfter state bs.length) := by
  rw [encodeFrom_append, encodeFrom_cons, encodeFrom_nil, List.append_nil, List.getLast?_append, bitRun_getLast?,
    Option.some_or]

/-- R103 item 1. -/
theorem encodeBits_head? {bits : List Bit} (h : bits ≠ []) : (encodeBits bits).head? = some false := by
  obtain ⟨b, bs, rfl⟩ := List.exists_cons_of_ne_nil h
  exact encodeFrom_cons_head? false b bs

/-- R103 item 3. -/
theorem encodeBits_getLast? {bits : List Bit} (h : bits ≠ []) :
    (encodeBits bits).getLast? = some (decide (bits.length % 2 = 0)) := by
  obtain ⟨bs, b, rfl⟩ := (List.eq_nil_or_concat' bits).resolve_left h
  rw [encodeBits, encodeFrom_concat_getLast?, stateAfter_false, List.length_append, List.length_singleton]
  simp only [Nat.succ_mod_two_eq_zero_iff]

end Sys2Proof.Machine

open Sys2Proof Sys2Proof.Machine

/-- Settles O35: the sum of the runs' lengths, and the bounds from there being at most as many ones as bits. -/
theorem encodedLengthIsOneOrThreeSlotsPerBit : Obligations.EncodedLengthIsOneOrThreeSlotsPerBit := by
  refine ⟨rfl, fun bits => ?_⟩
  have hlen : (encodeBits bits).length = bits.length + 2 * bits.count true := encodeFrom_length false bits
  have hones : bits.count true ≤ bits.length := List.count_le_length
  exact ⟨encodeFrom_length_eq_sum false bits, hlen, by omega, by omega⟩

/-- Settles O36: the state that starts at 0 is `k mod 2` after `k` bits. -/
theorem encodeIsTheConcatenationOfItsRuns : Obligations.EncodeIsTheConcatenationOfItsRuns := by
  intro bits
  rw [encodeBits, encodeFrom_eq_flatten_runs]
  simp only [stateAfter_false, bitRun_eq_replicate]

/-- Settles O37: injectivity from either state, and the state that the first part leaves. -/
theorem encodeIsInjectiveAndSplits : Obligations.EncodeIsInjectiveAndSplits :=
  ⟨fun _ _ h => encodeFrom_injective false h, encodeBits_append⟩

/-- Settles O38: the level of the first run and of the last. -/
theorem encodedLevelsStartLowAndEndByParity : Obligations.EncodedLevelsStartLowAndEndByParity :=
  fun _ h => ⟨encodeBits_head? h, encodeBits_getLast? h⟩

end

section
/-! The packet framer: a frame part by part, its length, and the levels at its seams (42_packet_framer.md
R110, R111, R113). -/

namespace Sys2Proof.Machine

open Sys2Proof

/-! ### The parts of a frame -/

/-- A frame before its postamble: preamble, sync and encoded payload (42_packet_framer.md R110). -/
def frameBody (bits : List Bit) : List Level := List.replicate 26 false ++ [true] ++ encodeBits bits

theorem frame_eq_frameBody_append (bits : List Bit) : frame bits = frameBody bits ++ [false, false] := rfl

/-- A frame as its preamble and what follows, the sync level first. -/
theorem frame_eq_preamble_append (bits : List Bit) :
    frame bits = List.replicate 26 false ++ true :: (encodeBits bits ++ [false, false]) := by
  simp [frame_eq_frameBody_append, frameBody]

theorem frame_length_eq_frameBody (bits : List Bit) : (frame bits).length = (frameBody bits).length + 2 := by
  rw [frame_eq_frameBody_append, List.length_append]
  rfl

theorem frameBody_length (bits : List Bit) : (frameBody bits).length = 26 + 1 + (encodeBits bits).length := by
  rw [frameBody, List.length_append]
  rfl

/-! ### The levels at the seams -/

theorem frame_getElem?_preamble (bits : List Bit) {i : Nat} (h : i < 26) : (frame bits)[i]? = some false := by
  rw [frame_eq_preamble_append, List.getElem?_append_left (by simpa using h), List.getElem?_replicate, if_pos h]

/-- The elements from the sync on, counted from there. -/
theorem frame_getElem?_from_sync (bits : List Bit) (k : Nat) :
    (frame bits)[26 + k]? = (true :: (encodeBits bits ++ [false, false]))[k]? := by
  rw [frame_eq_preamble_append, List.getElem?_append_right (by simp), List.length_replicate, Nat.add_sub_cancel_left]

/-- The level after the sync is 0: the first of the payload's, or of the postamble's when there is no payload. -/
theorem frame_getElem?_after_sync (bits : List Bit) : (frame bits)[27]? = some false := by
  rw [frame_getElem?_from_sync bits 1, List.getElem?_cons_succ, ← List.head?_eq_getElem?, List.head?_append]
  by_cases h : bits = []
  · subst h; rfl
  · rw [encodeBits_head? h, Option.some_or]

/-- The elements of the postamble. -/
theorem frame_getElem?_postamble (bits : List Bit) (k : Nat) :
    (frame bits)[(frameBody bits).length + k]? = [false, false][k]? := by
  rw [frame_eq_frameBody_append, List.getElem?_append_right (Nat.le_add_right _ _), Nat.add_sub_cancel_left]

/-- The level before the postamble is the last of the encoded payload. -/
theorem frame_getElem?_before_postamble {bits : List Bit} (h : bits ≠ []) :
    (frame bits)[(frameBody bits).length - 1]? = some (decide (bits.length % 2 = 0)) := by
  have hpos : 0 < (frameBody bits).length := by rw [frameBody_length]; omega
  rw [frame_eq_frameBody_append, List.getElem?_append_left (by omega), ← List.getLast?_eq_getElem?, frameBody,
    List.getLast?_append, encodeBits_getLast? h, Option.some_or]

end Sys2Proof.Machine

open Sys2Proof Sys2Proof.Machine

/-- Settles O39: the lengths of the four parts, and the length law of `encode`. -/
theorem frameIsPreambleSyncPayloadPostamble : Obligations.FrameIsPreambleSyncPayloadPostamble := by
  intro bits
  refine ⟨frame_eq_frameBody_append bits, ?_, frame_length bits⟩
  rw [frame_length_eq_frameBody, frameBody_length]

/-- Settles O40: the seams before the payload counted from the start of the frame, those after it from its end. -/
theorem framesHaveTheSeamsOfR113 : Obligations.FramesHaveTheSeamsOfR113 := by
  refine ⟨fun bits => ?_, fun a b _ h => frame_injective h⟩
  rw [frame_length_eq_frameBody]
  exact ⟨fun i => frame_getElem?_preamble bits, frame_getElem?_from_sync bits 0, frame_getElem?_after_sync bits,
    frame_getElem?_postamble bits 0, frame_getElem?_postamble bits 1, frame_getElem?_before_postamble⟩

end

section
/-! The argument check of `commandBits` (43_command_table.md R121). -/

namespace Sys2Proof.Machine

open Sys2Proof

/-- The check stands before any lookup, so neither the table nor the action has a say in a rejection. -/
theorem commandBits_of_not_legal (c : Config) {group button : Int} (on : Bool)
    (h : ¬(1 ≤ group ∧ group ≤ 4 ∧ 1 ≤ button ∧ button ≤ 4)) :
    commandBits c group button on = .error .invalidArgument :=
  dif_neg h

end Sys2Proof.Machine

open Sys2Proof Sys2Proof.Machine

/-- Settles O42: a selector outside 1..4 fails the check that `commandBits` makes on both. -/
theorem commandBitsRejectsABadSelection : Obligations.CommandBitsRejectsABadSelection := by
  intro c group button on hbad
  have hnot : ¬(1 ≤ group ∧ group ≤ 4 ∧ 1 ≤ button ∧ button ≤ 4) := by omega
  exact commandBits_of_not_legal c on hnot

end

section
/-! Transmissions: which edges start a frame, and the frames of one command from its accept edge to its response. -/

namespace Sys2Proof.Machine

open Sys2Proof

/-! ### Edges that start a frame -/

/-- `SendStart` of a legal selection starts a frame when the pin is available (45_commands.md R156). -/
theorem sendStart_of_available {c : Config} {gpioOk : Bool} {r : Regs} {group button : BitVec 4} {gi bi : Fin 4}
    (hgi : group.toNat = gi.val + 1) (hbi : button.toNat = bi.val + 1) (ho : r.pinOe = true) (hg : gpioOk = true)
    (on : Bool) (reps : Fin 5) :
    sendStart c gpioOk on group button reps r =
      startFrame c r.now gi bi on { edge r with selG := gi, selB := bi, selOn := on, rep := reps } := by
  unfold sendStart
  rw [selector_eq_some.2 hgi, selector_eq_some.2 hbi]
  exact if_pos (by rw [ho, hg]; rfl)

/-- The accept edge of a command runs it (45_commands.md R150). -/
theorem nextRegs_of_presents_encode {s : State} {i : Instr} (h : s.presents (encode i)) :
    nextRegs s = commandRegs i s := by
  rw [nextRegs_of_presents h, decode_encode]

theorem nextRegs_of_presents_send {s : State} {on : Bool} {group button : BitVec 4}
    (h : s.presents (encode (if on = true then .sendon group button else .sendoff group button))) :
    nextRegs s = sendStart s.cfg s.inp.gpioOk on group button sendReps s.regs := by
  rw [nextRegs_of_presents_encode h]
  cases on <;> rfl

theorem nextRegs_of_presents_switch {s : State} {on : Bool} {group button : BitVec 4}
    (h : s.presents (encode (if on = true then .swon group button else .swoff group button))) :
    nextRegs s = sendStart s.cfg s.inp.gpioOk on group button switchReps s.regs := by
  rw [nextRegs_of_presents_encode h]
  cases on <;> rfl

/-- An edge that runs `SendStart` with a legal selection and the pin available starts a frame. -/
theorem startsFrame_of_sendStart {s : State} {on : Bool} {group button : BitVec 4} {gi bi : Fin 4} {reps : Fin 5}
    (hn : nextRegs s = sendStart s.cfg s.inp.gpioOk on group button reps s.regs)
    (hgi : group.toNat = gi.val + 1) (hbi : button.toNat = bi.val + 1) (ho : s.regs.pinOe = true)
    (hg : s.inp.gpioOk = true) :
    StartsFrame s gi bi on reps.val { edge s.regs with selG := gi, selB := bi, selOn := on, rep := reps } :=
  ⟨hn.trans (sendStart_of_available hgi hbi ho hg on reps), rfl, rfl, rfl, rfl, rfl, rfl, ho⟩

/-- An edge that leaves the block at the first preamble slot with a pin write starts a frame, at an accept edge or at the
end of the frame before: an advance in PRE leaves `CNT` lower. -/
theorem startsFrame_of_first_slot {s : State} (hs : s.Inv) (hr : s.inp.rst = false) :
    (nextRegs s).phase = .pre → (nextRegs s).cnt = 25 → (nextRegs s).pinWr = true →
      ∃ reps n, StartsFrame s (nextRegs s).selG (nextRegs s).selB (nextRegs s).selOn reps n := by
  refine nextRegs_elim s (fun m => nextRegs s = m → m.phase = .pre → m.cnt = 25 → m.pinWr = true →
    ∃ reps n, StartsFrame s m.selG m.selB m.selOn reps n) ?reset ?quiet ?raised ?init ?start ?pre ?preEnd ?sync
    ?payRun ?payBit ?payEnd ?post ?complete ?again ?cutShort rfl
  case start => exact fun _ _ _ _ _ _ _ _ _ _ ho _ hn _ _ _ => ⟨_, _, hn, rfl, rfl, rfl, rfl, rfl, rfl, ho⟩
  case again =>
    exact fun _ _ hp _ _ _ hn _ _ _ =>
      ⟨_, _, hn, rfl, rfl, rfl, rfl, rfl, rfl, hs.pinOe_of_busy (by simp [hp])⟩
  case pre =>
    intro _ _ _ _ _ _ hcnt _
    have hval : s.regs.cnt.val - 1 = 25 := congrArg Fin.val hcnt
    have := s.regs.cnt.isLt
    omega
  case reset => simp [hr]
  case quiet | raised | init | complete | cutShort => intros; contradiction
  case preEnd | sync | payEnd => intros; contradiction
  case payRun | payBit | post =>
    intros
    simp_all

/-! ### Runs -/

/-- The invariants hold along every run (10_state.md R34). -/
theorem inv_observe {k : Nat} {s : State} {o : Observed} (hs : s.Inv) (ho : observe k s = some o) : o.final.Inv := by
  induction k generalizing s o with
  | zero =>
    rw [observe_zero, Option.some.injEq] at ho
    exact ho ▸ hs
  | succ k ih =>
    rw [observe_succ, Option.map_eq_some_iff] at ho
    obtain ⟨o', ho', rfl⟩ := ho
    exact ih (o := o') (inv_after_nextRegs hs) ho'

/-- From an edge that starts a transmission, the block is busy after every edge of a run without a response. -/
theorem observe_busy_of_start {k : Nat} {s : State} {o : Observed} (hb : (nextRegs s).busy = true) (hr : s.noReset k)
    (ho : observe k s = some o) (hn : o.responses = []) {j : Nat} {o' : Observed} (hj1 : 1 ≤ j) (hj : j ≤ k)
    (ho' : observe j s = some o') : o'.final.regs.busy = true := by
  obtain ⟨j, rfl⟩ := Nat.exists_eq_add_of_le' hj1
  obtain ⟨k, rfl⟩ := Nat.exists_eq_add_of_le' (hj1.trans hj)
  rw [observe_succ, Option.map_eq_some_iff] at ho ho'
  obtain ⟨o1, ho1, rfl⟩ := ho
  obtain ⟨o2, ho2, rfl⟩ := ho'
  exact observe_busy (s := s.after (nextRegs s)) (o' := o2) hb ((noReset_succ _).1 hr).2 ho1
    (List.append_eq_nil_iff.1 hn).2 (Nat.le_of_succ_le_succ hj) ho2

/-- The registers that the response at the last end of a frame leaves: all that R34 gives in IDLE, the latched selection,
and the target of the last slot. -/
theorem respond_at_frameEnd {t : State} {code : Resp} (ht : t.Inv) (h : AtFrameEnd t) :
    respond code { edge t.regs with phase := .idle, rep := 0 } =
      { Regs.reset with
        now := t.regs.tgt + 1, tgt := t.regs.tgt, pinOe := true, selG := t.regs.selG, selB := t.regs.selB
        selOn := t.regs.selOn, done := true, resp := code } := by
  obtain ⟨hlvl, hbit, hsh, htog, hrun, -⟩ := ht.post h.phase
  have ho := ht.pinOe_of_busy (by simp [h.phase])
  simp [respond, edge, Regs.reset, h.now, h.cnt, hlvl, hbit, hsh, htog, hrun, ho]

/-- A command with `reps` further frames, from the edge that starts its first (45_commands.md R157, R158): it sends all its
frames back to back, is busy all the while, and answers `OK`. -/
theorem observe_transmission {s : State} {gi bi : Fin 4} {on : Bool} {reps N : Nat} {n : Regs} {levels : List Level}
    (hs : s.Inv) (hstart : StartsFrame s gi bi on reps n)
    (hl : levels = frame (lsbFirst (commandCode s.cfg gi bi on).toNat 48)) (hN : N = levels.length * s.cfg.pulseTicks)
    (hg : ∀ j, 1 ≤ j → j ≤ reps → (s.inputAt (j * N)).gpioOk = true) (hr : s.noReset ((reps + 1) * N + 1)) :
    (∃ o, observe ((reps + 1) * N + 1) s = some o ∧
      o.writes = wrapTimes (schedule (repeatLevels (reps + 1) levels) s.regs.now.toNat s.cfg.pulseTicks) ∧
      o.responses = [.ok] ∧
      o.final.regs =
        { Regs.reset with
          now := s.regs.now + BitVec.ofNat 32 ((reps + 1) * N) + 1
          tgt := s.regs.now + BitVec.ofNat 32 ((reps + 1) * N)
          pinOe := true, selG := gi, selB := bi, selOn := on, done := true, resp := .ok }) ∧
    ∀ j o, 1 ≤ j → j ≤ (reps + 1) * N → observe j s = some o → o.final.regs.busy = true := by
  obtain ⟨hP, hP2, -⟩ := hs.cfg
  have hr' := noReset_mono (Nat.le_succ _) hr
  obtain ⟨t, hot, hlat, ht, htgt, hrep, hG, hB, hOn, -⟩ := observe_frames reps hstart hP hP2 hl hN le_rfl hg hr'
  have hrep0 : t.regs.rep = 0 := Fin.ext (by rw [hrep, Nat.sub_self]; rfl)
  have hend := observe_complete ht (hlat.noReset hr 0 Nat.one_pos) hrep0
  have htgt' : t.regs.tgt = s.regs.now + BitVec.ofNat 32 ((reps + 1) * N) := by
    rw [htgt, BitVec.ofNat_add, BitVec.ofNat_toNat, BitVec.setWidth_eq]
  constructor
  · refine ⟨_, observe_add_of hot hend, List.append_nil _, rfl, ?_⟩
    have hregs := respond_at_frameEnd (code := .ok) (inv_observe hs hot) ht
    rw [← htgt', ← hG, ← hB, ← hOn, ← hregs, ← hrep0]
    rfl
  · have hbusy : (nextRegs s).busy = true := by rw [hstart.next]; rfl
    exact fun j o hj1 hj ho => observe_busy_of_start hbusy hr' hot rfl hj1 hj ho

/-- The payload of a legal selection, from its selector fields (43_command_table.md R120). -/
theorem commandBits_of_selectors {c : Config} {group button : BitVec 4} {gi bi : Fin 4} {on : Bool} {bits : List Bit}
    (hgi : group.toNat = gi.val + 1) (hbi : button.toNat = bi.val + 1)
    (h : commandBits c group.toNat button.toNat on = .ok bits) :
    bits = lsbFirst (commandCode c gi bi on).toNat 48 := by
  rw [hgi, hbi] at h
  exact (Except.ok.inj ((commandBits_eq c gi bi on).symm.trans h)).symm

end Sys2Proof.Machine

open Sys2Proof Sys2Proof.Machine

/-- Settles O47: the edge starts a frame, and from a start the slots follow one by one. -/
theorem frameWritesItsSchedule : Obligations.FrameWritesItsSchedule := by
  intro s t bits hs hstep hpre hcnt hwr hbits hr
  obtain rfl := step_next_iff.1 hstep
  obtain ⟨hP, hP2, -⟩ := hs.cfg
  have hpos : 0 < (frame bits).length * s.cfg.pulseTicks := Nat.mul_pos (by rw [frame_length]; omega) hP
  obtain ⟨reps, n, hstart⟩ := startsFrame_of_first_slot hs (hr 0 hpos) hpre hcnt hwr
  obtain rfl := Except.ok.inj ((commandBits_eq _ _ _ _).symm.trans hbits)
  obtain ⟨u, hou, -, hu, htgt, -⟩ := observe_startFrame hstart hP hP2 rfl hr
  exact ⟨_, hou, rfl, rfl, hu.phase, hu.cnt, hu.now, hu.now.trans htgt⟩

/-- Settles O48: a transmission with no further frame. -/
theorem sendTransmitsOneFrameAndCompletes : Obligations.SendTransmitsOneFrameAndCompletes := by
  intro s on group button gi bi bits n hs ho hgi hbi hp hbits hn hg hr
  have hstart := startsFrame_of_sendStart (nextRegs_of_presents_send hp) hgi hbi ho hg
  have hone : (sendReps.val + 1) * (n * s.cfg.pulseTicks) = n * s.cfg.pulseTicks := Nat.one_mul _
  have hlevels : repeatLevels (sendReps.val + 1) (frame bits) = frame bits := List.append_nil _
  have := observe_transmission hs hstart (congrArg frame (commandBits_of_selectors hgi hbi hbits))
    (congrArg (· * s.cfg.pulseTicks) hn) (fun j hj1 hj => absurd (hj1.trans hj) (by decide)) (hone.symm ▸ hr)
  rwa [hone, hlevels] at this

/-- Settles O49: a transmission with four further frames. -/
theorem switchTransmitsFiveFramesAndCompletes : Obligations.SwitchTransmitsFiveFramesAndCompletes := by
  intro s on group button gi bi bits n hs ho hgi hbi hp hbits hn hg hr
  have hg0 : s.inp.gpioOk = true := by simpa using hg 0 (by decide)
  have hstart := startsFrame_of_sendStart (nextRegs_of_presents_switch hp) hgi hbi ho hg0
  exact observe_transmission hs hstart (congrArg frame (commandBits_of_selectors hgi hbi hbits))
    (congrArg (· * s.cfg.pulseTicks) hn) (fun j _ hj => hg j (Nat.lt_succ_of_le hj)) hr

end

section
/-! The edges of the sequencer, one by one: the accept edge that starts a frame, the advances at due edges, the wait and
idle edges, and the test that tells them apart. -/

namespace Sys2Proof.Machine

open Sys2Proof

/-! ### Counting down -/

theorem down_eq_of_val_eq_succ {n : Nat} {x k : Fin (n + 1)} (h : x.val = k.val + 1) : x ≠ 0 ∧ down x = k :=
  ⟨fun h0 => by simp [h0] at h, Fin.ext (by rw [down_val, h, Nat.add_sub_cancel])⟩

/-! ### Time -/

/-- The modular test agrees with the order of unbounded times that are near each other (44_pulse_transmitter.md R132). -/
theorem due_ofNat_iff {now tgt : Nat} (h1 : now ≤ tgt + (2 ^ 31 - 1)) (h2 : tgt ≤ now + (2 ^ 31 - 1)) :
    due (BitVec.ofNat 32 now) (BitVec.ofNat 32 tgt) = true ↔ tgt ≤ now := by
  rw [due, decide_eq_true_iff, BitVec.toNat_sub, BitVec.toNat_ofNat, BitVec.toNat_ofNat]
  omega

/-! ### The edges of an accepted command, of a busy and of an idle block -/

theorem exec_of_commandRegs {i : Instr} {s : State} {n : Regs} (h : commandRegs i s = n) :
    exec i s = .next (s.after n) := h ▸ exec_eq i s

theorem step_of_busy {s : State} (hr : s.inp.rst = false) (hb : s.regs.phase ≠ .idle) :
    step s = .next (s.after (runEdge s.cfg s.inp.gpioOk s.regs)) := by
  rw [step_eq, nextRegs_of_busy hr hb]

theorem nextRegs_of_no_command {s : State} (hr : s.inp.rst = false) (hp : s.regs.phase = .idle)
    (hv : s.inp.cmdValid = false) : nextRegs s = edge s.regs := by
  have ha : s.accepted = none := accepted_eq_none.2 (.inr (.inr hv))
  simp [nextRegs, ha, hr, runEdge, hp]

section
variable {s : State}

theorem step_of_due_pre (hr : s.inp.rst = false) (hp : s.regs.phase = .pre) (hd : due s.regs.now s.regs.tgt = true) :
    step s = .next (s.after (advancePre s.cfg s.regs)) := by
  rw [step_of_busy hr (by simp [hp])]
  simp [runEdge, hp, hd]

theorem step_of_due_sync (hr : s.inp.rst = false) (hp : s.regs.phase = .sync)
    (hd : due s.regs.now s.regs.tgt = true) : step s = .next (s.after (advanceSync s.cfg s.regs)) := by
  rw [step_of_busy hr (by simp [hp])]
  simp [runEdge, hp, hd]

theorem step_of_due_pay (hr : s.inp.rst = false) (hp : s.regs.phase = .pay) (hd : due s.regs.now s.regs.tgt = true) :
    step s = .next (s.after (advancePay s.cfg s.regs)) := by
  rw [step_of_busy hr (by simp [hp])]
  simp [runEdge, hp, hd]

theorem step_of_due_post (hr : s.inp.rst = false) (hp : s.regs.phase = .post)
    (hd : due s.regs.now s.regs.tgt = true) :
    step s = .next (s.after (advancePost s.cfg s.inp.gpioOk s.regs)) := by
  rw [step_of_busy hr (by simp [hp])]
  simp [runEdge, hp, hd]

end

/-! ### The host's one influence on a frame in flight -/

/-- `gpio_ok` reaches an edge of the sequencer only where a further frame is about to start (44_pulse_transmitter.md R143,
45_commands.md R157). -/
theorem runEdge_congr_gpioOk {c : Config} {r : Regs}
    (h : ¬(r.phase = .post ∧ r.cnt = 0 ∧ r.rep ≠ 0 ∧ due r.now r.tgt = true)) (g g' : Bool) :
    runEdge c g r = runEdge c g' r := by
  cases hp : r.phase with
  | post =>
    cases hd : due r.now r.tgt with
    | false => rw [runEdge_of_not_due hd, runEdge_of_not_due hd]
    | true =>
      by_cases hc : r.cnt = 0
      · have hrep : r.rep = 0 := by
          by_contra hrep
          exact h ⟨hp, hc, hrep, hd⟩
        simp [runEdge, advancePost, endFrame, hp, hd, hc, hrep]
      · simp [runEdge, advancePost, hp, hd, hc]
  | _ => simp only [runEdge, hp]

end Sys2Proof.Machine

open Sys2Proof Sys2Proof.Machine

/-- Settles O23: the target is ahead by less than one slot, so the modular test is an equality. -/
theorem transmissionIsDueExactlyAtItsTarget : Obligations.TransmissionIsDueExactlyAtItsTarget :=
  fun _ hs hb => due_iff_of_lt (hs.target_lt hb)

/-- Settles O32: a busy block's edge reads `gpio_ok` alone of the host's side, and that only at the excepted edge. -/
theorem hostCannotInfluenceAFrameInFlight : Obligations.HostCannotInfluenceAFrameInFlight := by
  intro s t hcfg hregs hrs hrt hb hexc
  refine ⟨_, step_of_busy hrs hb, ?_⟩
  rw [step_of_busy hrt (hregs ▸ hb), ← hcfg, ← hregs, runEdge_congr_gpioOk hexc t.inp.gpioOk s.inp.gpioOk]

/-- Settles O13: both commands are `SendStart` with no further frame. -/
theorem sendStartsOneFrame : Obligations.SendStartsOneFrame := by
  intro s group button gi bi hgi hbi ho hg
  have hstart := fun on => sendStart_of_available (c := s.cfg) hgi hbi ho hg on sendReps
  exact ⟨fun _ => exec_of_commandRegs (hstart false), fun _ => exec_of_commandRegs (hstart true)⟩

/-- Settles O14: both commands are `SendStart` with four further frames. -/
theorem switchStartsTheFirstOfFiveFrames : Obligations.SwitchStartsTheFirstOfFiveFrames := by
  intro s group button gi bi hgi hbi ho hg
  have hstart := fun on => sendStart_of_available (c := s.cfg) hgi hbi ho hg on switchReps
  exact ⟨fun _ => exec_of_commandRegs (hstart false), fun _ => exec_of_commandRegs (hstart true)⟩

/-- Settles O17, by `CNT`. -/
theorem advanceInThePreamble : Obligations.AdvanceInThePreamble := by
  intro s hr hp hlt
  rw [step_of_due_pre hr hp (decide_eq_true hlt)]
  constructor
  · intro k hk
    obtain ⟨hne, hdown⟩ := down_eq_of_val_eq_succ hk
    rw [advancePre, if_pos hne, hdown]
    rfl
  · intro h0
    rw [advancePre, if_neg (not_not_intro h0)]
    rfl

/-- Settles O18: the advance in SYNC has one case. -/
theorem advanceFromTheSyncSlot : Obligations.AdvanceFromTheSyncSlot := by
  intro s hr hp hlt
  rw [step_of_due_sync hr hp (decide_eq_true hlt)]
  rfl

/-- Settles O19, by `RUN` and `BITCNT`. -/
theorem advanceInThePayload : Obligations.AdvanceInThePayload := by
  intro s hr hp hlt
  rw [step_of_due_pay hr hp (decide_eq_true hlt)]
  refine ⟨fun k hk => ?_, fun k h0 hk hk1 => ?_, fun h0 hb => ?_, fun h0 hb => ?_⟩
  · obtain ⟨hne, hdown⟩ := down_eq_of_val_eq_succ hk
    rw [advancePay, if_pos hne, hdown]
    rfl
  · obtain ⟨hne, hdown⟩ := down_eq_of_val_eq_succ hk
    have hne1 : s.regs.bitcnt ≠ 1 := fun h => by simp [h] at hk; omega
    rw [advancePay, if_neg (not_not_intro h0), if_pos hne1, finishBit, bitcntDown_eq_down hne, hdown]
    rfl
  · refine ⟨bitcntDown s.regs.now s.regs.bitcnt, ?_⟩
    rw [advancePay, if_neg (not_not_intro h0), if_pos (by simp [hb])]
    rfl
  · rw [advancePay, if_neg (not_not_intro h0), if_neg (not_not_intro hb), finishBit, hb]
    rfl

/-- Settles O20, by `CNT`, then by the end of a frame: `REP` and `gpio_ok`. -/
theorem advanceInThePostambleAndEndOfFrame : Obligations.AdvanceInThePostambleAndEndOfFrame := by
  intro s hr hp hlt
  have hend (h0 : s.regs.cnt = 0) :
      advancePost s.cfg s.inp.gpioOk s.regs = endFrame s.cfg s.inp.gpioOk s.regs := if_neg (not_not_intro h0)
  rw [step_of_due_post hr hp (decide_eq_true hlt)]
  refine ⟨fun k hk => ?_, fun h0 hrep => ?_, fun h0 hrep hg => ?_, fun k h0 hk hg => ?_⟩
  · obtain ⟨hne, hdown⟩ := down_eq_of_val_eq_succ hk
    rw [advancePost, if_pos hne, hdown]
    rfl
  · rw [hend h0, endFrame, if_pos hrep]
    rfl
  · rw [hend h0, endFrame, if_neg hrep, hg]
    rfl
  · obtain ⟨hne, hdown⟩ := down_eq_of_val_eq_succ hk
    rw [hend h0, endFrame, if_neg hne, if_pos hg, hdown]
    rfl

/-- Settles O21: a wait edge and an idle edge are `edge`. -/
theorem waitAndIdleEdgesOnlyCount : Obligations.WaitAndIdleEdgesOnlyCount := by
  rintro s hr (⟨hb, hlt⟩ | ⟨hp, hv⟩)
  · have hd : due s.regs.now s.regs.tgt = false := decide_eq_false (Nat.not_lt.2 hlt)
    rw [step_of_busy hr hb, runEdge_of_not_due hd]
    rfl
  · rw [step_eq, nextRegs_of_no_command hr hp hv]
    rfl

/-- Settles O22, by the difference of the two residues. -/
theorem dueIsTheOrderOfUnboundedTimes : Obligations.DueIsTheOrderOfUnboundedTimes :=
  fun _ _ h1 h2 => due_ofNat_iff h1 h2

/-- Settles O46: a schedule is the levels with their indices. -/
theorem scheduleTimesEachLevelOnce : Obligations.ScheduleTimesEachLevelOnce := by
  intro levels t0 p
  refine ⟨List.length_mapIdx, fun i level h => ?_, rfl⟩
  rw [schedule, List.getElem?_mapIdx, h]
  rfl

end

section
/-! The commands at their accept edge: refusals, illegal words, and a SWITCH that stops between two frames. -/

namespace Sys2Proof.Machine

open Sys2Proof

/-! ### Refused commands -/

/-- The selection is checked before the pin (43_command_table.md R121, 60_exceptions.md R175). -/
theorem sendStart_of_bad_selection {group button : BitVec 4}
    (h : (selectorLegal group && selectorLegal button) = false) (c : Config) (gpioOk on : Bool) (reps : Fin 5)
    (r : Regs) : sendStart c gpioOk on group button reps r = raise .invalidArgument r := by
  rcases sendStart_cases c gpioOk on group button reps r with ⟨-, he⟩ | ⟨hl, -⟩ | ⟨gi, bi, hgi, hbi, -⟩
  · exact he
  · simp [h] at hl
  · have hg := selector_isSome.1 ⟨gi, selector_eq_some.2 hgi⟩
    have hb := selector_isSome.1 ⟨bi, selector_eq_some.2 hbi⟩
    simp [hg, hb] at h

/-- A legal selection needs the pin initialised and accessible (45_commands.md R156). -/
theorem sendStart_of_unavailable {gpioOk : Bool} {r : Regs} {group button : BitVec 4}
    (h : (selectorLegal group && selectorLegal button) = true) (hu : r.pinOe = false ∨ gpioOk = false) (c : Config)
    (on : Bool) (reps : Fin 5) : sendStart c gpioOk on group button reps r = raise .hwUnavailable r := by
  rcases sendStart_cases c gpioOk on group button reps r with ⟨hl, -⟩ | ⟨-, -, he⟩ | ⟨_, _, -, -, ho, hg, -⟩
  · simp [h] at hl
  · exact he
  · simp [ho, hg] at hu

theorem commandRegs_of_ill_formed {i : Instr} (s : State) (h : i.wellFormed = false) :
    commandRegs i s = raise .invalidArgument s.regs := by
  cases i with
  | init => exact absurd h (by decide)
  | _ group button => exact sendStart_of_bad_selection h ..

theorem commandRegs_of_unavailable {i : Instr} {s : State} (hi : i ≠ .init) (h : i.wellFormed = true)
    (hu : s.regs.pinOe = false ∨ s.inp.gpioOk = false) : commandRegs i s = raise .hwUnavailable s.regs := by
  cases i with
  | init => exact absurd rfl hi
  | _ group button => exact sendStart_of_unavailable h hu ..

/-- A word that `Decode` of R64 calls illegal, whether it is of no row or of a row with an illegal selection
(45_commands.md R159). -/
theorem nextRegs_of_illegal {s : State} {c : CmdWord} (hp : s.presents c) (h : decodeCmd c = .illegal) :
    nextRegs s = raise .invalidArgument s.regs := by
  rw [nextRegs_of_presents hp]
  cases hd : decode c with
  | error e => rfl
  | ok i =>
    have hw : i.wellFormed = false := by
      by_contra hw
      exact decodeCmd_ne_illegal_iff.2 ⟨i, eq_true_of_ne_false hw, (eq_encode_of_decode hd).symm⟩ h
    exact commandRegs_of_ill_formed s hw

/-! ### A transmission cut short -/

/-- A command that finds the pin subsystem inaccessible at the end of frame `m + 1` with further frames to come
(45_commands.md R157): it has sent whole frames alone, and answers `HwUnavailable` there. -/
theorem observe_transmission_cutShort {s : State} {gi bi : Fin 4} {on : Bool} {m reps N : Nat} {n : Regs}
    {levels : List Level} (hs : s.Inv) (hstart : StartsFrame s gi bi on reps n)
    (hl : levels = frame (lsbFirst (commandCode s.cfg gi bi on).toNat 48)) (hN : N = levels.length * s.cfg.pulseTicks)
    (hm : m < reps) (hg : ∀ j, 1 ≤ j → j ≤ m → (s.inputAt (j * N)).gpioOk = true)
    (hstop : (s.inputAt ((m + 1) * N)).gpioOk = false) (hr : s.noReset ((m + 1) * N + 1)) :
    ∃ o, observe ((m + 1) * N + 1) s = some o ∧
      o.writes = wrapTimes (schedule (repeatLevels (m + 1) levels) s.regs.now.toNat s.cfg.pulseTicks) ∧
      o.responses = [.hwUnavailable] ∧
      o.final.regs =
        { Regs.reset with
          now := s.regs.now + BitVec.ofNat 32 ((m + 1) * N) + 1
          tgt := s.regs.now + BitVec.ofNat 32 ((m + 1) * N)
          pinOe := true, selG := gi, selB := bi, selOn := on, done := true, resp := .hwUnavailable } := by
  obtain ⟨hP, hP2, -⟩ := hs.cfg
  obtain ⟨t, hot, hlat, ht, htgt, hrep, hG, hB, hOn, -⟩ :=
    observe_frames m hstart hP hP2 hl hN hm.le hg (noReset_mono (Nat.le_succ _) hr)
  have hrep0 : t.regs.rep ≠ 0 := fun h => by rw [h, Fin.val_zero] at hrep; omega
  have htstop : t.inp.gpioOk = false := by rw [← inputAt_zero, hlat.inputs, Nat.add_zero, hstop]
  have hend := observe_cutShort ht (hlat.noReset hr 0 Nat.one_pos) hrep0 htstop
  have htgt' : t.regs.tgt = s.regs.now + BitVec.ofNat 32 ((m + 1) * N) := by
    rw [htgt, BitVec.ofNat_add, BitVec.ofNat_toNat, BitVec.setWidth_eq]
  refine ⟨_, observe_add_of hot hend, List.append_nil _, rfl, ?_⟩
  rw [← htgt', ← hG, ← hB, ← hOn]
  exact respond_at_frameEnd (inv_observe hs hot) ht

end Sys2Proof.Machine

open Sys2Proof Sys2Proof.Machine

/-- Settles O50: a SWITCH has four further frames, so any frame before its last can be the one it stops after. -/
theorem switchStopsAtAFrameBoundary : Obligations.SwitchStopsAtAFrameBoundary := by
  intro s on group button gi bi bits n m hs ho hgi hbi hp hbits hn hm1 hm4 hg hstop hr
  obtain ⟨m, rfl⟩ := Nat.exists_eq_add_of_le' hm1
  have hg0 : s.inp.gpioOk = true := by simpa using hg 0 hm1
  have hstart := startsFrame_of_sendStart (nextRegs_of_presents_switch hp) hgi hbi ho hg0
  exact observe_transmission_cutShort hs hstart (congrArg frame (commandBits_of_selectors hgi hbi hbits))
    (congrArg (· * s.cfg.pulseTicks) hn) hm4 (fun j _ hj => hg j (Nat.lt_succ_of_le hj)) hstop hr

/-- Settles O7: the accepted word decides the step. -/
theorem stepRunsTheDecodedCommand : Obligations.StepRunsTheDecodedCommand := by
  intro s c i hp hd
  rw [step_eq, exec_eq, nextRegs_of_presents hp, hd]

/-- Settles O8: of no row or with an illegal selection, the word raises `InvalidArgument`. -/
theorem illegalWordAnswersInvalidArgument : Obligations.IllegalWordAnswersInvalidArgument := by
  intro s c hp h
  rw [step_eq, nextRegs_of_illegal hp h]
  rfl

/-- Settles O12, by `gpio_ok`. -/
theorem initPutsThePinInOutputModeOrIsRefused : Obligations.InitPutsThePinInOutputModeOrIsRefused := by
  intro s _
  rcases initEdge_cases s.inp.gpioOk s.regs with ⟨hg, h⟩ | ⟨hg, h⟩
  · exact ⟨fun _ => exec_of_commandRegs h, fun hg' => absurd (hg.symm.trans hg') (by decide)⟩
  · exact ⟨fun hg' => absurd (hg.symm.trans hg') (by decide), fun _ => exec_of_commandRegs h⟩

/-- Settles O15: a command other than INIT is `SendStart`, which raises `HwUnavailable`. -/
theorem unavailablePinRefusesALegalTransmission : Obligations.UnavailablePinRefusesALegalTransmission :=
  fun _ _ _ hi hw hu => exec_of_commandRegs (commandRegs_of_unavailable hi hw hu)

/-- Settles O16: `SendStart` looks at the selection before the pin. -/
theorem badSelectionAnswersInvalidArgumentFirst : Obligations.BadSelectionAnswersInvalidArgumentFirst :=
  fun s _ _ hw => exec_of_commandRegs (commandRegs_of_ill_formed s hw)

end
